-- ==== Sys2Proof/Word.lean ====
section
/-! DEFINITION. The widths, the lines and the events of the SPIBB engine (spec/00_scope.md §5, spec/10_state.md). -/

namespace Sys2Proof

/-- A data word: WDATA, ACC, the `data` field, the `value` of a response (64 bits, R16, R50, R56). -/
abbrev Word := BitVec 64

/-- The bit count `n` of a word command: the `n` field and the register N (8 bits, unsigned, R16, R50). -/
abbrev BitCount := BitVec 8

/-- The register STEP (7 bits, R16). -/
abbrev StepCount := BitVec 7

/-- The register HOLD, a count of `clk` periods that stands for `T_HOLD` (32 bits, R19). -/
abbrev Ticks := BitVec 32

/-- A command word CMD76 (R50). -/
abbrev CmdWord := BitVec 76

/-- A response word (67 bits, R56). -/
abbrev RspWord := BitVec 67

/-- The level of a line, `true` for 1 and high, `false` for 0 and low (00_scope.md §5.1, D7). -/
abbrev Level := Bool

/-- The five lines (00_scope.md §5.2). -/
inductive Line
  | sclk
  | cs1
  | cs2
  | mosi
  | miso
  deriving DecidableEq, Repr

/-- The four output lines, the ones `LineWrite` can drive (R30, R31). -/
inductive OutLine
  | sclk
  | cs1
  | cs2
  | mosi
  deriving DecidableEq, Repr

/-- The four kinds of line event (R5). -/
inductive Event
  /-- `W(L, v)`: output line `L` is driven to level `v`. -/
  | write (l : OutLine) (v : Level)
  /-- `S(MISO, b)`: the data-in line is sampled once and found at level `b`. -/
  | sample (b : Level)
  /-- `H(T_HOLD)`: the engine waits the hold time, given in `clk` periods (log 15). -/
  | hold (t : Ticks)
  /-- `X(L)`: line `L` is disposed. -/
  | dispose (l : Line)
  deriving DecidableEq, Repr

end Sys2Proof
end

