-- ==== Sys2Proof/Config.lean ====
section
/-! DEFINITION. The construction parameters of an engine (spec/00_scope.md R2) and the free values: what the spec leaves
open, as constants without a body, of which nothing can be proved. -/

namespace Sys2Proof

/-- `ENDIAN` (R2, R3): the order in time of a word's bits. The names are the reverse of what they suggest (R33). -/
inductive Endian
  | little
  | big
  deriving DecidableEq, Repr

/-- The strap inputs, sampled while `rst = 1` (R22, R130). -/
structure Straps where
  endian : Endian
  hasCs2 : Bool
  hasMosi : Bool
  hasMiso : Bool
  /-- `cfg_hold_ticks`, the count of `clk` periods that makes `T_HOLD` (R4, R19, D11). -/
  holdTicks : Ticks
  deriving DecidableEq, Repr

/-- The straps under which `State.reset` stands. ENDIAN is the spec's default (R2); DESIGN CHOICE: the spec gives no
default for the three optional lines, all are present here (log 2), and 1000 ticks stand for the reference 1 ms (log 3).
Unsafe for a claim about `State.reset` alone: state claims for all straps. -/
def Config.resetStraps : Straps :=
  { endian := .little, hasCs2 := true, hasMosi := true, hasMiso := true, holdTicks := 1000#32 }

/-- FREE VALUE. The level the environment presents at a MISO sample that no listed input answers: any bit, which may
depend on the whole trace so far and on how many free values were drawn before (R35, D27, log 8). -/
opaque Config.misoLevel : Nat → List Event → Level

/-- FREE VALUE. The level that a disposed output line shows, which is meaningless (R106, U14): any bit, for each line and
each life of an engine, which the number tells apart (log 13). -/
opaque Config.disposedLevel : Nat → OutLine → Level

/-- FREE VALUE. What WDATA holds between commands (R16, D26, log 6). -/
opaque Config.staleWdata : Nat → Word

/-- FREE VALUE. What ACC holds between commands (R16, D26, log 6). -/
opaque Config.staleAcc : Nat → Word

/-- FREE VALUE. What N holds between commands (R16, D26, log 6). -/
opaque Config.staleN : Nat → BitCount

/-- FREE VALUE. What STEP holds between commands (R16, D26, log 6). -/
opaque Config.staleStep : Nat → StepCount

end Sys2Proof
end

