-- ==== Sys2Proof/Syntax.lean ====
section
/-! DEFINITION. The commands of the engine, one constructor per row of spec/opcode_table.json (R52), and the assembler's
abstract syntax with its two pseudo-instructions (R60, R61). -/

namespace Sys2Proof

/-- A host command with the operands R53 takes from its fields. Ignored fields are no part of a command (R54, log 14). -/
inductive Instr
  /-- Assert chip-select 1 and open a scope (R95). -/
  | sel1
  /-- Assert chip-select 2 and open a scope (R96). -/
  | sel2
  /-- Deassert chip-select 1 (R97). -/
  | rel1
  /-- Deassert chip-select 2 (R98). -/
  | rel2
  /-- Write one bit (R80). -/
  | wbit (b : Level)
  /-- Read one bit (R82). -/
  | rbit
  /-- Write `n` bits of an 8-bit word (R85). -/
  | ww8 (w : BitVec 8) (n : BitCount)
  /-- Write `n` bits of a 16-bit word (R86). -/
  | ww16 (w : BitVec 16) (n : BitCount)
  /-- Write `n` bits of a 32-bit word (R87). -/
  | ww32 (w : BitVec 32) (n : BitCount)
  /-- Write `n` bits of a 64-bit word (R88). -/
  | ww64 (w : BitVec 64) (n : BitCount)
  /-- Read `n` bits into 64 (R89). -/
  | rw (n : BitCount)
  /-- Dispose every owned line (R105). -/
  | close
  deriving DecidableEq, Repr

/-- One command as the assembler's text gives it, with numbers of any size (R60). -/
inductive AsmCmd
  | sel1
  | sel2
  | rel1
  | rel2
  | wbit (b : Nat)
  | rbit
  | ww8 (w n : Nat)
  | ww16 (w n : Nat)
  | ww32 (w n : Nat)
  | ww64 (w n : Nat)
  | rw (n : Nat)
  | close
  deriving DecidableEq, Repr

/-- One item of an assembler program: a command, or a pseudo-instruction with its body (R60, R61). -/
inductive AsmItem
  | cmd (c : AsmCmd)
  | with1 (body : List AsmCmd)
  | with2 (body : List AsmCmd)
  deriving DecidableEq, Repr

end Sys2Proof
end

