-- ==== Sys2Proof/WellFormed.lean ====
section
/-! DEFINITION. What is well-formed. A command itself always is: within a legal opcode no field value is illegal (R55), and
`Instr` has no other fields. What the spec checks is the assembler's operands (R60), the straps (R2) and, as a premise of
claims, that a command sequence is well-scoped (R141). -/

namespace Sys2Proof

/-- Every command is well-formed: a bit count above the width is a legal encoding of a command that fails when it runs
(R55). -/
def Instr.wellFormed : Instr → Bool
  | .sel1 | .sel2 | .rel1 | .rel2 | .wbit _ | .rbit => true
  | .ww8 _ _ | .ww16 _ _ | .ww32 _ _ | .ww64 _ _ | .rw _ | .close => true

/-- A bit count the assembler's text can write: 0 to 255 (R60). -/
def countFits (n : Nat) : Bool := n < 256

/-- The assembler refuses an operand that does not fit its field (R60). -/
def AsmCmd.wellFormed : AsmCmd → Bool
  | .sel1 | .sel2 | .rel1 | .rel2 | .rbit | .close => true
  | .wbit b => b < 2
  | .ww8 w n => w < 2 ^ 8 && countFits n
  | .ww16 w n => w < 2 ^ 16 && countFits n
  | .ww32 w n => w < 2 ^ 32 && countFits n
  | .ww64 w n => w < 2 ^ 64 && countFits n
  | .rw n => countFits n

/-- Every command of an item fits. -/
def AsmItem.wellFormed : AsmItem → Bool
  | .cmd c => c.wellFormed
  | .with1 body => body.all AsmCmd.wellFormed
  | .with2 body => body.all AsmCmd.wellFormed

/-- `T_HOLD` is "any positive duration" (R2). Reset does not check it (log 25). -/
def Straps.wellFormed (p : Straps) : Bool := p.holdTicks != 0

/-- Where a command sequence stands with respect to its scopes (R141). -/
inductive ScopeState
  /-- No scope is outstanding. -/
  | free
  /-- The scope of chip-select 1 is outstanding; `used` says that a transfer was made inside it. -/
  | held1 (used : Bool)
  /-- The scope of chip-select 2 is outstanding. -/
  | held2 (used : Bool)
  /-- CLOSE was issued. -/
  | done
  /-- The sequence is not well-scoped. -/
  | bad
  deriving DecidableEq, Repr

/-- A bit or word command (R141 (a)). -/
def Instr.isTransfer : Instr → Bool
  | .wbit _ | .rbit | .ww8 _ _ | .ww16 _ _ | .ww32 _ _ | .ww64 _ _ | .rw _ => true
  | .sel1 | .sel2 | .rel1 | .rel2 | .close => false

/-- One command of a sequence, by the letters of R141. SEL2 without a second chip-select is not successful: it opens no
scope (R96). -/
def ScopeState.next (hasCs2 : Bool) (q : ScopeState) (i : Instr) : ScopeState :=
  match q, i with
  | .bad, _ => .bad
  | .done, _ => .bad
  | .free, .sel1 => .held1 false
  | .free, .sel2 => if hasCs2 then .held2 false else .free
  | .free, .close => .done
  | .free, _ => .bad
  | .held1 _, i => if i.isTransfer then .held1 true else if i = .rel1 then .free else .bad
  | .held2 _, i => if i.isTransfer then .held2 true else if i = .rel2 then .free else .bad

/-- The scope state after a sequence. -/
def ScopeState.run (hasCs2 : Bool) (q : ScopeState) (is : List Instr) : ScopeState :=
  is.foldl (ScopeState.next hasCs2) q

/-- R141, read letter by letter (log 24): no letter is broken, and a scope still outstanding at the end holds no transfer (a transfer must lie between
its select and its release). -/
def wellScoped (hasCs2 : Bool) (is : List Instr) : Bool :=
  match ScopeState.run hasCs2 .free is with
  | .free | .done | .held1 false | .held2 false => true
  | .held1 true | .held2 true | .bad => false

end Sys2Proof
end

