-- ==== Sys2Proof/Decode.lean ====
section
/-! DEFINITION. From a command word to a command and back (spec/30_encoding.md R50 to R55), and the assembler (R60, R61). -/

namespace Sys2Proof

/-- Field `op`, bits 75:72 (R50). -/
def cmdOp (w : CmdWord) : BitVec 4 := w.extractLsb' 72 4

/-- Field `n`, bits 71:64 (R50). -/
def cmdN (w : CmdWord) : BitCount := w.extractLsb' 64 8

/-- Field `data`, bits 63:0 (R50). -/
def cmdData (w : CmdWord) : Word := w.extractLsb' 0 64

/-- What the decoder answers: a command, or the refusal of a reserved opcode, which it names (R55). -/
inductive Decoded
  | instr (i : Instr)
  | reserved (op : BitVec 4)
  deriving DecidableEq, Repr

/-- The decoder looks at the opcode and at nothing else to select the command (R52), and takes the operands from the
fields as R53 says. Opcodes 0x0, 0xD, 0xE, 0xF are reserved (R55). -/
def decode (w : CmdWord) : Decoded :=
  match (cmdOp w).toNat with
  | 0x1 => .instr .sel1
  | 0x2 => .instr .sel2
  | 0x3 => .instr .rel1
  | 0x4 => .instr .rel2
  | 0x5 => .instr (.wbit ((cmdData w).getLsbD 0))
  | 0x6 => .instr .rbit
  | 0x7 => .instr (.ww8 ((cmdData w).extractLsb' 0 8) (cmdN w))
  | 0x8 => .instr (.ww16 ((cmdData w).extractLsb' 0 16) (cmdN w))
  | 0x9 => .instr (.ww32 ((cmdData w).extractLsb' 0 32) (cmdN w))
  | 0xA => .instr (.ww64 (cmdData w) (cmdN w))
  | 0xB => .instr (.rw (cmdN w))
  | 0xC => .instr .close
  | _ => .reserved (cmdOp w)

/-- The instruction of a decoder's answer, if it is one. -/
def Decoded.instr? : Decoded → Option Instr
  | .instr i => some i
  | .reserved _ => none

/-- The host's view of the decoder. A row has 76 bits, so in whole bytes 80; bits 79:76 are no part of a command word,
and a number that has one of them is no command (log 20). -/
def decodeTableWord (nbits w : Nat) : Option Instr :=
  if w % 2 ^ nbits < 2 ^ 76 then (decode (BitVec.ofNat 76 (w % 2 ^ nbits))).instr? else none

/-- The opcode of a command (R52). -/
def Instr.opcode : Instr → BitVec 4
  | .sel1 => 0x1#4
  | .sel2 => 0x2#4
  | .rel1 => 0x3#4
  | .rel2 => 0x4#4
  | .wbit _ => 0x5#4
  | .rbit => 0x6#4
  | .ww8 _ _ => 0x7#4
  | .ww16 _ _ => 0x8#4
  | .ww32 _ _ => 0x9#4
  | .ww64 _ _ => 0xA#4
  | .rw _ => 0xB#4
  | .close => 0xC#4

/-- The `n` field of a command: its bit count, or 0 where the field is ignored (R53, R54). -/
def Instr.nField : Instr → BitCount
  | .sel1 | .sel2 | .rel1 | .rel2 | .wbit _ | .rbit | .close => 0
  | .ww8 _ n | .ww16 _ n | .ww32 _ n | .ww64 _ n | .rw n => n

/-- The `data` field of a command: its word, zero-extended, or 0 where the field is ignored (R53, R54). -/
def Instr.dataField : Instr → Word
  | .sel1 | .sel2 | .rel1 | .rel2 | .rbit | .rw _ | .close => 0
  | .wbit b => (BitVec.ofBool b).setWidth 64
  | .ww8 w _ => w.setWidth 64
  | .ww16 w _ => w.setWidth 64
  | .ww32 w _ => w.setWidth 64
  | .ww64 w _ => w

/-- A command word from its three fields (R50). -/
def packCmd (op : BitVec 4) (n : BitCount) (data : Word) : CmdWord := (op ++ n) ++ data

/-- The command word of a command, ignored fields zero (R50, R54). -/
def encode (i : Instr) : CmdWord := packCmd i.opcode i.nField i.dataField

/-- The mnemonic of a command (R52). -/
def Instr.mnemonic : Instr → String
  | .sel1 => "SEL1"
  | .sel2 => "SEL2"
  | .rel1 => "REL1"
  | .rel2 => "REL2"
  | .wbit _ => "WBIT"
  | .rbit => "RBIT"
  | .ww8 _ _ => "WW8"
  | .ww16 _ _ => "WW16"
  | .ww32 _ _ => "WW32"
  | .ww64 _ _ => "WW64"
  | .rw _ => "RW"
  | .close => "CLOSE"

/-- The opcode table as R52 gives it: mnemonic and `match`; every row has the mask `0xF000000000000000000`. -/
def opcodeTable : List (String × CmdWord) :=
  [("SEL1", 0x1000000000000000000#76), ("SEL2", 0x2000000000000000000#76),
   ("REL1", 0x3000000000000000000#76), ("REL2", 0x4000000000000000000#76),
   ("WBIT", 0x5000000000000000000#76), ("RBIT", 0x6000000000000000000#76),
   ("WW8", 0x7000000000000000000#76), ("WW16", 0x8000000000000000000#76),
   ("WW32", 0x9000000000000000000#76), ("WW64", 0xA000000000000000000#76),
   ("RW", 0xB000000000000000000#76), ("CLOSE", 0xC000000000000000000#76)]

/-- The mask of every row of the opcode table (R52). -/
def opcodeMask : CmdWord := 0xF000000000000000000#76

/-- The assembler: a command whose operands fit, or nothing (R60). -/
def AsmCmd.assemble (c : AsmCmd) : Option Instr :=
  if c.wellFormed then
    some (match c with
      | .sel1 => .sel1
      | .sel2 => .sel2
      | .rel1 => .rel1
      | .rel2 => .rel2
      | .wbit b => .wbit (b == 1)
      | .rbit => .rbit
      | .ww8 w n => .ww8 (BitVec.ofNat 8 w) (BitVec.ofNat 8 n)
      | .ww16 w n => .ww16 (BitVec.ofNat 16 w) (BitVec.ofNat 8 n)
      | .ww32 w n => .ww32 (BitVec.ofNat 32 w) (BitVec.ofNat 8 n)
      | .ww64 w n => .ww64 (BitVec.ofNat 64 w) (BitVec.ofNat 8 n)
      | .rw n => .rw (BitVec.ofNat 8 n)
      | .close => .close)
  else none

/-- A command as the assembler's text writes it (R60). -/
def Instr.toAsm : Instr → AsmCmd
  | .sel1 => .sel1
  | .sel2 => .sel2
  | .rel1 => .rel1
  | .rel2 => .rel2
  | .wbit b => .wbit b.toNat
  | .rbit => .rbit
  | .ww8 w n => .ww8 w.toNat n.toNat
  | .ww16 w n => .ww16 w.toNat n.toNat
  | .ww32 w n => .ww32 w.toNat n.toNat
  | .ww64 w n => .ww64 w.toNat n.toNat
  | .rw n => .rw n.toNat
  | .close => .close

/-- The commands an item stands for when no command of it fails: `WITHk body` is SELk, the body, RELk (R61). How a host
issues it when one fails is `Machine.runWith`. -/
def AsmItem.expand : AsmItem → List AsmCmd
  | .cmd c => [c]
  | .with1 body => [.sel1] ++ body ++ [.rel1]
  | .with2 body => [.sel2] ++ body ++ [.rel2]

end Sys2Proof
end

