-- ==== Sys2Proof/Machine/State.lean ====
section
/-! DEFINITION. The state of the engine as plain data (spec/10_state.md R10 to R25), the reasons a step can stop, and the
state after reset (spec/70_reset_and_hazards.md R130, spec/10_state.md §9). -/

namespace Sys2Proof.Machine

/-- CFG: the construction parameters, fixed until the next reset (R18). `Cfg.toBits` is the 4-bit register. -/
structure Cfg where
  endian : Endian
  hasCs2 : Bool
  hasMosi : Bool
  hasMiso : Bool
  deriving DecidableEq, Repr

/-- One output line (R11, R22): the level last driven, whether it was driven since reset, whether it is still open. -/
structure OutState where
  level : Level
  driven : Bool
  isOpen : Bool
  deriving DecidableEq, Repr

/-- The five lines (R11). MISO has no level: it belongs to the environment. -/
structure Lines where
  sclk : OutState
  cs1 : OutState
  cs2 : OutState
  mosi : OutState
  misoOpen : Bool
  /-- The model's own number of this life of the engine: it numbers the free levels of disposed lines (log 13). -/
  epoch : Nat
  deriving DecidableEq, Repr

/-- The data-path registers of a word command (R16). -/
structure DataPath where
  /-- WDATA, the word a write command sends. -/
  wdata : Word
  /-- ACC, the read accumulator. -/
  acc : Word
  /-- N, the bit count. -/
  n : BitCount
  /-- STEP, the transmission step. -/
  step : StepCount
  deriving DecidableEq, Repr

/-- The status of a response (R58). The codes 5, 6 and 7 are never produced. -/
inductive Status
  /-- The command ran to its last event. -/
  | ok
  /-- It needs an optional line that was not supplied (R110). -/
  | unsupported
  /-- Its bit count is above the width of its encoding (R111). -/
  | outOfRange
  /-- The engine is closed (R112). -/
  | closed
  /-- Its opcode is reserved (R113). -/
  | illegal
  deriving DecidableEq, Repr

/-- A response (R56). `Response.toBits` is the 67-bit word. -/
structure Response where
  status : Status
  value : Word
  deriving DecidableEq, Repr

/-- The phase of the engine (R14). -/
inductive Phase
  | constructed
  | idle
  | selected
  | closed
  deriving DecidableEq, Repr

/-- The port `rst` and the straps beside it, as one step finds them (R22, R130, R134). -/
inductive RstIn
  /-- `rst = 0`. -/
  | low
  /-- `rst = 1` before any command is taken. -/
  | high (straps : Straps)
  /-- `rst` rises while the command taken in this step is executing, after `events` of its events (R134). -/
  | rises (events : Nat) (straps : Straps)
  deriving DecidableEq, Repr

/-- The host's side of the ports in one step (R22, R51, R57). -/
structure PortIn where
  rst : RstIn
  /-- `cmd_valid` and `cmd`. -/
  cmd : Option CmdWord
  /-- `rsp_ready`. -/
  rspReady : Bool
  deriving DecidableEq, Repr

/-- The state: what the spec gives the engine, the inputs still to come, and the model's own fields. -/
structure State where
  /-- CFG (R18). -/
  cfg : Cfg
  /-- HOLD, that is `T_HOLD` (R19). -/
  holdTicks : Ticks
  /-- The sticky flag `closed` (R17). -/
  closed : Bool
  /-- The INIT sequence has finished (R14, R131, log 18). -/
  initDone : Bool
  /-- The lines (R11). -/
  lines : Lines
  /-- WDATA, ACC, N, STEP (R16). -/
  dp : DataPath
  /-- The response channel: the response the engine presents, if any (R57). -/
  rsp : Option Response
  /-- The trace T, oldest event first (R23). -/
  trace : List Event
  /-- A reset that rose during a command and takes effect next, with its straps (R134, log 10). -/
  aborting : Option Straps
  /-- The host's port samples still to come, one a step (R22, log 9). -/
  inputs : List PortIn
  /-- The environment's answers to the coming MISO samples; past its end a sample is a free value (R35, log 8). -/
  misoIn : List Level
  /-- The model's own record: the responses the host has taken, oldest first (log 16). -/
  delivered : List Response
  /-- The model's own counter: it numbers the free values drawn (log 6, log 8) and the lives of the engine (log 13). -/
  fresh : Nat
  deriving DecidableEq, Repr

/-- The engine has no fault that stops it: "There are no other faults" beside the four error statuses, which are
responses (R114, R121). So no constructor (log 21). -/
inductive Fault
  deriving DecidableEq, Repr

/-- The reasons the model gives an instruction no meaning. -/
inductive Refusal
  /-- Raised by an arm of `exec` for an instruction that has no meaning yet; safe. No arm raises it. -/
  | notModelled (mnemonic : String)
  deriving DecidableEq, Repr

/-- What a meaning and a step answer. -/
abbrev Result := Host.Outcome State Fault Refusal

/-- The engine right after reset, before INIT (R130, 10_state.md §9), under the straps of `Config.resetStraps` (log 2,
log 3). The spec gives `closed`, the open bits, the undriven outputs, the empty trace and the absent response. DESIGN
CHOICE, unsafe: the four levels are 0 (log 4), WDATA, ACC, N and STEP are 0 (log 5); no input is listed (log 8, log 9). -/
def State.reset : State :=
  { cfg := { endian := Config.resetStraps.endian, hasCs2 := Config.resetStraps.hasCs2,
             hasMosi := Config.resetStraps.hasMosi, hasMiso := Config.resetStraps.hasMiso }
    holdTicks := Config.resetStraps.holdTicks
    closed := false
    initDone := false
    lines :=
      { sclk := { level := false, driven := false, isOpen := true }
        cs1 := { level := false, driven := false, isOpen := true }
        cs2 := { level := false, driven := false, isOpen := Config.resetStraps.hasCs2 }
        mosi := { level := false, driven := false, isOpen := Config.resetStraps.hasMosi }
        misoOpen := Config.resetStraps.hasMiso
        epoch := 0 }
    dp := { wdata := 0, acc := 0, n := 0, step := 0 }
    rsp := none
    trace := []
    aborting := none
    inputs := []
    misoIn := []
    delivered := []
    fresh := 0 }

end Sys2Proof.Machine
end

