-- ==== Sys2Proof/Machine/Operands.lean ====
section
/-! DEFINITION. The operands: line ids (spec/00_scope.md §5.2), presence (spec/10_state.md R11), and the bit serializer with
its arithmetic (spec/40_serializer.md R70 to R73). -/

namespace Sys2Proof.Machine

/-- The output line as a line. -/
def toLine : OutLine → Line
  | .sclk => .sclk
  | .cs1 => .cs1
  | .cs2 => .cs2
  | .mosi => .mosi

/-- The line ids of 00_scope.md §5.2 (R30, D8). -/
def lineId : Line → BitVec 3
  | .sclk => 0
  | .cs1 => 1
  | .cs2 => 2
  | .mosi => 3
  | .miso => 4

/-- All lines in the order of their ids, which is the order of disposal (R107). -/
def allLines : List Line := [.sclk, .cs1, .cs2, .mosi, .miso]

/-- `present[L]` (R11): SCLK and CS1 always are. -/
def Cfg.present (c : Cfg) : Line → Bool
  | .sclk => true
  | .cs1 => true
  | .cs2 => c.hasCs2
  | .mosi => c.hasMosi
  | .miso => c.hasMiso

/-- `idx(n, i)` (R70): the index, within the word, of the bit that crosses the data line at step `i`. It is evaluated
only for `i < n`, so the subtraction is exact (R71). -/
def idx (e : Endian) (n i : Nat) : Nat :=
  match e with
  | .big => i
  | .little => n - 1 - i

/-- `(w >> k) & 1` (R72). -/
def bitOut (w : Word) (k : Nat) : Level := w.getLsbD k

/-- Setting bit `k` of the accumulator when the sampled bit is 1: `ACC | (1 << k)` (R73). -/
def mergeBit (acc : Word) (k : Nat) (b : Level) : Word := if b then acc ||| (1#64 <<< k) else acc

/-- The bit index at the current step, from the registers N and STEP (R16, R70). -/
def DataPath.index (d : DataPath) (e : Endian) : Nat := idx e d.n.toNat d.step.toNat

/-- The word of a WBIT: bit 0 of WDATA is its value (R16). -/
def bitWord (b : Level) : Word := (BitVec.ofBool b).setWidth 64

end Sys2Proof.Machine
end

