-- ==== Sys2Proof/Machine/Flags.lean ====
section
/-! DEFINITION. The views: phase (spec/10_state.md R14), the registers CFG, STATUS and LINES (R18, R20, R21), the output ports
(R22), and the response word (spec/30_encoding.md R56, R58). None has storage of its own. -/

namespace Sys2Proof.Machine

/-- One output line of the five. -/
def Lines.out (ln : Lines) : OutLine → OutState
  | .sclk => ln.sclk
  | .cs1 => ln.cs1
  | .cs2 => ln.cs2
  | .mosi => ln.mosi

/-- `open[L]` (R11). -/
def Lines.isOpen (ln : Lines) : Line → Bool
  | .sclk => ln.sclk.isOpen
  | .cs1 => ln.cs1.isOpen
  | .cs2 => ln.cs2.isOpen
  | .mosi => ln.mosi.isOpen
  | .miso => ln.misoOpen

/-- CFG as the 4-bit register (R18): bit 0 ENDIAN, bit 1 HAS_CS2, bit 2 HAS_MOSI, bit 3 HAS_MISO. -/
def Cfg.toBits (c : Cfg) : BitVec 4 :=
  BitVec.ofBool c.hasMiso ++ BitVec.ofBool c.hasMosi ++ BitVec.ofBool c.hasCs2 ++ BitVec.ofBool (c.endian == .big)

/-- The phase (R14). -/
def State.phase (s : State) : Phase :=
  if s.initDone = false then .constructed
  else if s.closed then .closed
  else if !s.lines.cs1.level || (s.cfg.hasCs2 && !s.lines.cs2.level) then .selected
  else .idle

/-- The code of a phase in STATUS (R20). -/
def Phase.code : Phase → BitVec 2
  | .constructed => 0
  | .idle => 1
  | .selected => 2
  | .closed => 3

/-- BUSY (R20): the INIT sequence is executing, or the state stands inside a command that a reset cut short. Between
steps no other command is executing (log 1). -/
def State.busy (s : State) : Bool := !s.initDone || s.aborting.isSome

/-- STATUS (R20): PHASE in bits 1:0, BUSY in bit 2; the port `status_o`. -/
def State.statusReg (s : State) : BitVec 3 := BitVec.ofBool s.busy ++ s.phase.code

/-- LINES (R21): the four levels in bits 3:0, the open bits in 8:4. An absent CS2 reads 1, an absent MOSI reads 0. -/
def State.linesReg (s : State) : BitVec 9 :=
  BitVec.ofBool s.lines.misoOpen ++ BitVec.ofBool s.lines.mosi.isOpen ++ BitVec.ofBool s.lines.cs2.isOpen ++
  BitVec.ofBool s.lines.cs1.isOpen ++ BitVec.ofBool s.lines.sclk.isOpen ++
  BitVec.ofBool (s.cfg.hasMosi && s.lines.mosi.level) ++ BitVec.ofBool (!s.cfg.hasCs2 || s.lines.cs2.level) ++
  BitVec.ofBool s.lines.cs1.level ++ BitVec.ofBool s.lines.sclk.level

/-- The `_o` port of an output line (R22). DESIGN CHOICE (log 28), unsafe: the spec gives `cs2_o` without CS2 and `mosi_o`
without MOSI no value, only `_oe = 0`; here they show the stored level, which is 0. Before
INIT, where `_oe` is 0 too, it is the stored level likewise (log 4), and after the dispose a free value (log 13). -/
def State.outPort (s : State) (l : OutLine) : Level := (s.lines.out l).level

/-- The `_oe` port of an output line (R22): present, open, and driven at least once since reset. -/
def State.outEnable (s : State) (l : OutLine) : Bool :=
  s.cfg.present (toLine l) && (s.lines.out l).isOpen && (s.lines.out l).driven

/-- `cmd_ready` (R51): INIT has completed, no command is executing, the previous response has been taken. -/
def State.cmdReady (s : State) : Bool := s.initDone && s.aborting.isNone && s.rsp.isNone

/-- `rsp_valid` (R57). -/
def State.rspValid (s : State) : Bool := s.rsp.isSome

/-- The status codes (R58). -/
def Status.code : Status → BitVec 3
  | .ok => 0
  | .unsupported => 1
  | .outOfRange => 2
  | .closed => 3
  | .illegal => 4

/-- The response word (R56): `status` in bits 66:64, `value` in bits 63:0. -/
def Response.toBits (r : Response) : RspWord := r.status.code ++ r.value

end Sys2Proof.Machine
end

