-- ==== Sys2Proof/Machine/Ops.lean ====
section
/-! DEFINITION. The shared operations: the primitives of spec/00_scope.md R6, `pulse()` (spec/41_synchronizer.md R75), the
checks of a command and what an error does (spec/60_exceptions.md R110 to R115), the response, and the loops of the word
commands (spec/43_word_ops.md R84, R89). -/

namespace Sys2Proof.Machine

/-- Replacing one output line. -/
def Lines.setOut (ln : Lines) (l : OutLine) (o : OutState) : Lines :=
  match l with
  | .sclk => { ln with sclk := o }
  | .cs1 => { ln with cs1 := o }
  | .cs2 => { ln with cs2 := o }
  | .mosi => { ln with mosi := o }

/-- An output line disposed: no longer open, and its level from now on a free value (R106, log 13). -/
def OutState.shut (o : OutState) (k : Nat) (l : OutLine) : OutState :=
  { o with isOpen := false, level := Config.disposedLevel k l }

/-- `open[L] <- 0` (R6), and the level of a disposed output line is meaningless (R106). -/
def Lines.shut (ln : Lines) (l : Line) : Lines :=
  match l with
  | .sclk => { ln with sclk := ln.sclk.shut ln.epoch .sclk }
  | .cs1 => { ln with cs1 := ln.cs1.shut ln.epoch .cs1 }
  | .cs2 => { ln with cs2 := ln.cs2.shut ln.epoch .cs2 }
  | .mosi => { ln with mosi := ln.mosi.shut ln.epoch .mosi }
  | .miso => { ln with misoOpen := false }

/-- What one event does to the lines (R6, R11): a write sets the level, a dispose closes and
leaves a meaningless level, the others change nothing. -/
def Lines.apply (ln : Lines) : Event → Lines
  | .write l v => ln.setOut l { ln.out l with level := v, driven := true }
  | .dispose l => ln.shut l
  | .sample _ => ln
  | .hold _ => ln

/-- What a sequence of events does to the lines. -/
def Lines.replay (ln : Lines) (es : List Event) : Lines := es.foldl Lines.apply ln

/-- The lines while `rst = 1` (R130): open where present, nothing driven. The levels are unspecified (R132); DESIGN
CHOICE 0 (log 4). `k` numbers this life of the engine (log 13). -/
def Lines.atReset (c : Cfg) (k : Nat) : Lines :=
  { sclk := { level := false, driven := false, isOpen := c.present .sclk }
    cs1 := { level := false, driven := false, isOpen := c.present .cs1 }
    cs2 := { level := false, driven := false, isOpen := c.present .cs2 }
    mosi := { level := false, driven := false, isOpen := c.present .mosi }
    misoOpen := c.present .miso
    epoch := k }

/-- One event: it is appended to the trace and takes effect on the lines at once (R6, R31). -/
def State.emit (s : State) (e : Event) : State :=
  { s with lines := s.lines.apply e, trace := s.trace ++ [e] }

/-- Several events, in order. -/
def State.emitAll (s : State) (es : List Event) : State := es.foldl State.emit s

/-- `LineWrite(L, v)` (R6, R31). That `L` is present and open is what the commands' checks ensure; the write itself
cannot fail (R121, log 11). -/
def State.lineWrite (s : State) (l : OutLine) (v : Level) : State := s.emit (.write l v)

/-- `Hold()` (R6, R76). -/
def State.waitHold (s : State) : State := s.emit (.hold s.holdTicks)

/-- `Dispose(L)` (R6, R106). -/
def State.disposeLine (s : State) (l : Line) : State := s.emit (.dispose l)

/-- The level the environment presents at the next sample (R35): its next listed answer, else a free value. -/
def State.nextSample (s : State) : Level :=
  match s.misoIn with
  | b :: _ => b
  | [] => Config.misoLevel s.fresh s.trace

/-- `LineRead(MISO)` (R6, R32): one sample, which changes no line. Its result is `nextSample`. -/
def State.lineRead (s : State) : State :=
  { s with misoIn := s.misoIn.tail, fresh := s.fresh + 1 }.emit (.sample s.nextSample)

/-- `pulse()` (R75): clock high, hold, clock low; no delay after (R77). -/
def State.pulse (s : State) : State :=
  ((s.lineWrite .sclk true).waitHold).lineWrite .sclk false

/-- WRITE ONE BIT (R80): data first, then the clock pulse. -/
def State.writeBit (s : State) (b : Level) : State := (s.lineWrite .mosi b).pulse

/-- READ ONE BIT (R82): the clock pulse first, then one sample. The bit is the `nextSample` of `s.pulse`. -/
def State.readBit (s : State) : State := s.pulse.lineRead

/-- The data path between commands: unspecified (R16), so free values. -/
def staleDataPath (k : Nat) : DataPath :=
  { wdata := Config.staleWdata k, acc := Config.staleAcc k, n := Config.staleN k, step := Config.staleStep k }

/-- `return v` (R6, R56): the command ends with status OK and value `v`; the data path's contents are then unspecified
(R16, log 6). -/
def State.respondOk (s : State) (v : Word) : State :=
  { s with rsp := some { status := .ok, value := v }, dp := staleDataPath s.fresh, fresh := s.fresh + 1 }

/-- TAKING AN ERROR, `raise E(info)` (R6, R114): the only effect is the response. Nothing is saved, there is no handler,
and nothing to return from (R116). The data path stays as it was too (log 7). -/
def State.raise (s : State) (e : Status) (info : Word) : State :=
  { s with rsp := some { status := e, value := info } }

/-- The value of an OUT_OF_RANGE response: `n | (width << 8)` (R59, R111). -/
def rangeInfo (n : BitCount) (width : Nat) : Word := n.setWidth 64 ||| (BitVec.ofNat 64 width <<< 8)

/-- The value of an UNSUPPORTED response: the line id (R59, R110). -/
def lineInfo (l : Line) : Word := (lineId l).setWidth 64

/-- Check 4 of R115: a line the command will use is absent (R110). -/
def State.missingLine (s : State) (line : Option Line) : Option Response :=
  match line with
  | some l => if s.cfg.present l then none else some { status := .unsupported, value := lineInfo l }
  | none => none

/-- Checks 3 and 4 of R115: the bit count against the width, then the line. `count` is a word command's bit count with
the width it is checked against, `line` the line the command will use. -/
def State.operandError (s : State) (count : Option (BitCount × Nat)) (line : Option Line) : Option Response :=
  match count with
  | some (n, width) =>
    if width < n.toNat then some { status := .outOfRange, value := rangeInfo n width } else s.missingLine line
  | none => s.missingLine line

/-- The checks 2 to 4 of R115, in that order; the first that fails decides. (Check 1, the opcode, is the decoder's.) -/
def State.firstError (s : State) (count : Option (BitCount × Nat)) (line : Option Line) : Option Response :=
  if s.closed then some { status := .closed, value := 0 } else s.operandError count line

/-- A COMMAND (R115): the checks, all before the first event, then the body to its last event. -/
def State.command (s : State) (count : Option (BitCount × Nat)) (line : Option Line) (body : State → State) : Result :=
  match s.firstError count line with
  | some r => .next (s.raise r.status r.value)
  | none => .next (body s)

/-- The line a word command will use: none when its bit count is 0 (R84, R89, R115, D17). -/
def lineIfAny (n : BitCount) (l : Line) : Option Line := if n = 0 then none else some l

/-- Loading WDATA, N and STEP at the start of a write (R16). -/
def State.loadWrite (s : State) (w : Word) (n : BitCount) : State :=
  { s with dp := { s.dp with wdata := w, n := n, step := 0 } }

/-- Loading N and STEP and clearing ACC at the start of a read (R16, R89). -/
def State.loadRead (s : State) (n : BitCount) : State :=
  { s with dp := { s.dp with acc := 0, n := n, step := 0 } }

/-- STEP counts one bit (R16). -/
def State.countBit (s : State) : State := { s with dp := { s.dp with step := s.dp.step + 1 } }

/-- One step of a word write (R84): the bit of WDATA that `idx` names, as a WBIT would send it. -/
def State.writeStep (s : State) : State :=
  (s.writeBit (bitOut s.dp.wdata (s.dp.index s.cfg.endian))).countBit

/-- One step of a word read (R89): as an RBIT reads it, and the bit merged into ACC where `idx` says. -/
def State.readStep (s : State) : State :=
  let t := s.readBit
  { t with dp := { t.dp with acc := mergeBit t.dp.acc (t.dp.index t.cfg.endian) s.pulse.nextSample } }.countBit

/-- `k` steps of a word write. -/
def State.writeLoop : Nat → State → State
  | 0, s => s
  | k + 1, s => State.writeLoop k s.writeStep

/-- `k` steps of a word read. -/
def State.readLoop : Nat → State → State
  | 0, s => s
  | k + 1, s => State.readLoop k s.readStep

/-- `WriteWord(k, w, n)` (R84). -/
def State.writeWord (s : State) (width : Nat) (w : Word) (n : BitCount) : Result :=
  s.command (some (n, width)) (lineIfAny n .mosi)
    (fun s => (State.writeLoop n.toNat (s.loadWrite w n)).respondOk 0)

/-- `CLOSE`'s dispose of every present line, in the order of R105 and R107. -/
def State.disposeAll (s : State) : State :=
  allLines.foldl (fun t l => if s.cfg.present l then t.disposeLine l else t) s

end Sys2Proof.Machine
end

