-- ==== Sys2Proof/Machine/BitOps.lean ====
section
/-! DEFINITION. The bit commands WBIT and RBIT (spec/42_bit_ops.md R80, R82). The phase is not checked (spec/10_state.md R15). -/

namespace Sys2Proof.Machine

/-- WBIT b (R80): MOSI to `b`, then one pulse. Bit 0 of WDATA is the value (R16, log 26). -/
def execWbit (b : Level) (s : State) : Result :=
  s.command none (some .mosi)
    (fun s =>
      let t := { s with dp := { s.dp with wdata := bitWord b } }
      (t.writeBit (bitOut t.dp.wdata 0)).respondOk 0)

/-- RBIT (R82): one pulse, then one sample, returned zero-extended. -/
def execRbit (s : State) : Result :=
  s.command none (some .miso) (fun s => s.readBit.respondOk (bitWord s.pulse.nextSample))

end Sys2Proof.Machine
end

