-- ==== Sys2Proof/Machine/ChipSelect.lean ====
section
/-! DEFINITION. The chip-select commands SEL1, SEL2, REL1, REL2 (spec/44_select_scope.md R95 to R98). A chip-select is active
low; the engine keeps no record of scopes (R99 to R101). -/

namespace Sys2Proof.Machine

/-- SEL1 (R95): assert chip-select 1; the handle is 1. -/
def execSel1 (s : State) : Result :=
  s.command none (some .cs1) (fun s => (s.lineWrite .cs1 false).respondOk 1)

/-- SEL2 (R96): assert chip-select 2; the handle is 2. -/
def execSel2 (s : State) : Result :=
  s.command none (some .cs2) (fun s => (s.lineWrite .cs2 false).respondOk 2)

/-- REL1 (R97): deassert chip-select 1, whatever its level was. -/
def execRel1 (s : State) : Result :=
  s.command none (some .cs1) (fun s => (s.lineWrite .cs1 true).respondOk 0)

/-- REL2 (R98): deassert chip-select 2, whatever its level was. -/
def execRel2 (s : State) : Result :=
  s.command none (some .cs2) (fun s => (s.lineWrite .cs2 true).respondOk 0)

end Sys2Proof.Machine
end

