-- ==== Sys2Proof/Machine/Lifecycle.lean ====
section
/-! DEFINITION. The life cycle: reset and INIT (spec/70_reset_and_hazards.md R130, R131) and CLOSE (spec/45_close.md R105). -/

namespace Sys2Proof.Machine

/-- CFG as sampled from the straps (R18, R130). -/
def cfgOf (p : Straps) : Cfg :=
  { endian := p.endian, hasCs2 := p.hasCs2, hasMosi := p.hasMosi, hasMiso := p.hasMiso }

/-- RESET (R130): CFG and HOLD from the straps, `closed` cleared, every present line open, no line driven, the trace
empty, no response, phase Constructed. WDATA, ACC, N and STEP are unspecified (R132); DESIGN CHOICE 0 (log 5). What
belongs to the host and the environment stays. The counter `fresh` numbers the engine's new life (log 13). -/
def State.construct (s : State) (p : Straps) : State :=
  { s with
    cfg := cfgOf p
    holdTicks := p.holdTicks
    closed := false
    initDone := false
    lines := Lines.atReset (cfgOf p) (s.fresh + 1)
    dp := { wdata := 0, acc := 0, n := 0, step := 0 }
    rsp := none
    trace := []
    aborting := none
    fresh := s.fresh + 1 }

/-- The writes of INIT, in order (R131). MISO is not touched. -/
def initWrites (c : Cfg) : List (OutLine × Level) :=
  [(.sclk, false), (.cs1, true)] ++ (if c.hasCs2 then [(.cs2, true)] else []) ++
    (if c.hasMosi then [(.mosi, false)] else [])

/-- INIT (R131): the engine drives its lines idle by itself, before it takes any command. It cannot fail. -/
def State.runInit (s : State) : State :=
  { (initWrites s.cfg).foldl (fun t p => t.lineWrite p.1 p.2) s with initDone := true }

/-- CLOSE (R105): dispose every present line, each once, driving none, then set `closed`. -/
def execClose (s : State) : Result :=
  s.command none none (fun s => { s.disposeAll with closed := true }.respondOk 0)

end Sys2Proof.Machine
end

