-- ==== Sys2Proof/Machine/WordOps.lean ====
section
/-! DEFINITION. The word commands WW8, WW16, WW32, WW64 and RW (spec/43_word_ops.md R84 to R89). -/

namespace Sys2Proof.Machine

/-- WW8 w, n (R85). -/
def execWw8 (w : BitVec 8) (n : BitCount) (s : State) : Result := s.writeWord 8 (w.setWidth 64) n

/-- WW16 w, n (R86). -/
def execWw16 (w : BitVec 16) (n : BitCount) (s : State) : Result := s.writeWord 16 (w.setWidth 64) n

/-- WW32 w, n (R87). -/
def execWw32 (w : BitVec 32) (n : BitCount) (s : State) : Result := s.writeWord 32 (w.setWidth 64) n

/-- WW64 w, n (R88). -/
def execWw64 (w : BitVec 64) (n : BitCount) (s : State) : Result := s.writeWord 64 w n

/-- RW n (R89): `n` bits gathered into ACC, which is the value returned. -/
def execRw (n : BitCount) (s : State) : Result :=
  s.command (some (n, 64)) (lineIfAny n .miso)
    (fun s =>
      let t := State.readLoop n.toNat (s.loadRead n)
      t.respondOk t.dp.acc)

end Sys2Proof.Machine
end

