-- ==== Sys2Proof/Machine/Dispatch.lean ====
section
/-! DEFINITION. One arm per command (spec/30_encoding.md R52). -/

namespace Sys2Proof.Machine

def exec (i : Instr) (s : State) : Host.Outcome State Fault Refusal :=
  match i with
  | .sel1 => Sys2Proof.Machine.execSel1 s
  | .sel2 => Sys2Proof.Machine.execSel2 s
  | .rel1 => Sys2Proof.Machine.execRel1 s
  | .rel2 => Sys2Proof.Machine.execRel2 s
  | .wbit b => Sys2Proof.Machine.execWbit b s
  | .rbit => Sys2Proof.Machine.execRbit s
  | .ww8 w n => Sys2Proof.Machine.execWw8 w n s
  | .ww16 w n => Sys2Proof.Machine.execWw16 w n s
  | .ww32 w n => Sys2Proof.Machine.execWw32 w n s
  | .ww64 w n => Sys2Proof.Machine.execWw64 w n s
  | .rw n => Sys2Proof.Machine.execRw n s
  | .close => Sys2Proof.Machine.execClose s

end Sys2Proof.Machine
end

