-- ==== Sys2Proof/Machine/Channel.lean ====
section
/-! DEFINITION. The command and response channels (spec/30_encoding.md R51, R57), reset at any time
(spec/70_reset_and_hazards.md R130, R134), and what one step does with the ports it finds. -/

namespace Sys2Proof.Machine

/-- The ports of a silent host, which is what stands past the end of `inputs` (log 9). -/
def silentPort : PortIn := { rst := .low, cmd := none, rspReady := false }

/-- The host's ports in this step. -/
def State.port (s : State) : PortIn := s.inputs.headD silentPort

/-- The state with this step's port sample used up. -/
def State.popInput (s : State) : State := { s with inputs := s.inputs.tail }

/-- A command word is executed: a reserved opcode is ILLEGAL whatever the phase (R113), the others are their command. -/
def State.runWord (s : State) (w : CmdWord) : Result :=
  match decode w with
  | .instr i => exec i s
  | .reserved _ => .next (s.raise .illegal 0)

/-- The response is handed over in the step in which `rsp_ready = 1`, and held until then (R57). -/
def State.offerResponse (s : State) (r : Response) (ready : Bool) : State :=
  if ready then { s with rsp := none, delivered := s.delivered ++ [r] } else s

/-- Whether an event is a sample of MISO. -/
def isSample : Event → Bool
  | .sample _ => true
  | _ => false

/-- `rst` rises during a command (R134): of the events by which the whole command leads from `s` to `t`, only the first
`k` have happened; there is no response and the rest never happens. The lines stand as those events left them until the
reset takes effect in the next step (log 10). DESIGN CHOICE (log 29): R134 does not say what WDATA, ACC, N and STEP hold at
the cut; they hold what they hold at the end of the whole command, free values, or on an error what they held before. -/
def State.cutShort (s t : State) (k : Nat) (p : Straps) : State :=
  let happened := (t.trace.drop s.trace.length).take k
  { t with
    closed := s.closed
    lines := s.lines.replay happened
    trace := s.trace ++ happened
    misoIn := s.misoIn.drop (happened.countP isSample)
    rsp := none
    aborting := some p }

/-- The engine with no reset pending: INIT first (R131), then a response to hand over (R57), then a command to take
(R51), else it waits. -/
def State.advance (s : State) (q : PortIn) : Result :=
  if s.initDone = false then .next s.runInit
  else
    match s.rsp, q.cmd with
    | some r, _ => .next (s.offerResponse r q.rspReady)
    | none, some w => s.runWord w
    | none, none => .next s

/-- `rst` rises in this step: during the command if one is taken, else at once (R134, log 10). -/
def State.resetDuring (s : State) (q : PortIn) (k : Nat) (p : Straps) : Result :=
  match s.cmdReady, q.cmd with
  | true, some w =>
    match s.runWord w with
    | .next t => .next (s.cutShort t k p)
    | .fault r => .fault r
    | .refused r => .refused r
  | _, _ => .next (s.construct p)

/-- One step: a reset that cut a command short takes effect; else the ports decide. -/
def State.clocked (s : State) : Result :=
  match s.aborting with
  | some p => .next (s.construct p)
  | none =>
    match s.port.rst with
    | .high p => .next (s.popInput.construct p)
    | .rises k p => s.popInput.resetDuring s.port k p
    | .low => s.popInput.advance s.port

/-- The command channel made ready: INIT has run and no response waits (R51). -/
def State.makeReady (s : State) : State :=
  { (if s.initDone then s else s.runInit) with rsp := none, aborting := none }

/-- The host presents a command word in the very next step. -/
def State.present (s : State) (w : CmdWord) : State :=
  { s with inputs := { rst := .low, cmd := some w, rspReady := false } :: s.inputs }

end Sys2Proof.Machine
end

