-- ==== Sys2Proof/Machine/Step.lean ====
section
/-! DEFINITION. One step of the engine, a command at a time (spec/92_eei_decisions.md D35, log 1), and the placing of the next
command for the host's check (log 12). -/

namespace Sys2Proof.Machine

/-- One step. -/
def step (s : State) : Host.Outcome State Fault Refusal := s.clocked

/-- `s` with the command word `w` presented by the host so that the next step takes and runs it: INIT done, the response
channel free, no reset pending, and the word at the head of the inputs (log 12). -/
def State.withFetchWord (s : State) (nbits w : Nat) : State :=
  s.makeReady.present (BitVec.ofNat 76 (w % 2 ^ nbits))

end Sys2Proof.Machine
end

