-- ==== Sys2Proof/Machine/Assembler.lean ====
section
/-! DEFINITION. The assembler's text (spec/30_encoding.md R60, R61): from characters to the commands, scopes and
configuration they say. Whether the operands fit is `AsmCmd.assemble`'s question. What R60 leaves open about layout is
fixed here (log 27). -/

namespace Sys2Proof.Machine

/-- The tokens of the text: words, commas, the braces of a WITH, ends of lines. -/
inductive Token
  | word (cs : List Char)
  | comma
  | lbrace
  | rbrace
  | eol
  deriving DecidableEq, Repr

/-- Ending the word read so far, whose characters stand in reverse. -/
def flush (cur : List Char) (ts : List Token) : List Token :=
  match cur with
  | [] => ts
  | _ :: _ => .word cur.reverse :: ts

/-- From characters to tokens. `;` starts a comment, which ends with its line (R60). The character codes 123 and 125 are
the braces. -/
def lex (cur : List Char) (comment : Bool) : List Char → List Token
  | [] => flush cur [.eol]
  | c :: cs =>
    if c = '\n' then flush cur (.eol :: lex [] false cs)
    else if comment then lex [] true cs
    else if c = ';' then flush cur (lex [] true cs)
    else if c = ',' then flush cur (.comma :: lex [] false cs)
    else if c.toNat = 123 then flush cur (.lbrace :: lex [] false cs)
    else if c.toNat = 125 then flush cur (.rbrace :: lex [] false cs)
    else if c = ' ' ∨ c = '\t' ∨ c = '\r' then flush cur (lex [] false cs)
    else lex (c :: cur) false cs

/-- The value of a digit, 0 to 15. -/
def digitValue (c : Char) : Option Nat :=
  if '0' ≤ c ∧ c ≤ '9' then some (c.toNat - 48)
  else if 'a' ≤ c ∧ c ≤ 'f' then some (c.toNat - 87)
  else if 'A' ≤ c ∧ c ≤ 'F' then some (c.toNat - 55)
  else none

/-- One more digit of a number in a base. -/
def addDigit (base acc : Nat) (c : Char) : Option Nat :=
  match digitValue c with
  | some d => if d < base then some (acc * base + d) else none
  | none => none

/-- Numbers are decimal or `0x` hexadecimal (R60). DESIGN CHOICE (log 27): R60 does not say whether the text may group
digits with `_`, as the spec's own notation does (00_scope.md §5.1); a number with `_` is refused. -/
def parseNumber : List Char → Option Nat
  | [] => none
  | ['0', 'x'] => none
  | '0' :: 'x' :: ds => ds.foldlM (addDigit 16) 0
  | ds => ds.foldlM (addDigit 10) 0

/-- The commands without operands (R60). -/
def plainCommands : List (List Char × AsmCmd) :=
  [(['S', 'E', 'L', '1'], .sel1), (['S', 'E', 'L', '2'], .sel2), (['R', 'E', 'L', '1'], .rel1),
   (['R', 'E', 'L', '2'], .rel2), (['R', 'B', 'I', 'T'], .rbit), (['C', 'L', 'O', 'S', 'E'], .close)]

/-- The commands with one number (R60). -/
def oneNumber (m : List Char) (a : Nat) : Option AsmCmd :=
  if m = ['W', 'B', 'I', 'T'] then some (.wbit a)
  else if m = ['R', 'W'] then some (.rw a)
  else none

/-- The commands with two numbers (R60). -/
def twoNumbers (m : List Char) (w n : Nat) : Option AsmCmd :=
  if m = ['W', 'W', '8'] then some (.ww8 w n)
  else if m = ['W', 'W', '1', '6'] then some (.ww16 w n)
  else if m = ['W', 'W', '3', '2'] then some (.ww32 w n)
  else if m = ['W', 'W', '6', '4'] then some (.ww64 w n)
  else none

/-- The command of a line (R60). -/
def parseCommand : List Token → Option AsmCmd
  | [.word m] => plainCommands.lookup m
  | [.word m, .word a] => (parseNumber a).bind (oneNumber m)
  | [.word m, .word a, .comma, .word b] =>
    match parseNumber a, parseNumber b with
    | some w, some n => twoNumbers m w n
    | _, _ => none
  | _ => none

/-- `<0|1>` after a key (R60). -/
def parseFlag (key w : List Char) : Option Bool :=
  if w = key ++ ['=', '0'] then some false else if w = key ++ ['=', '1'] then some true else none

/-- `ENDIAN=<Little|Big>` (R60). -/
def parseEndian (w : List Char) : Option Endian :=
  if w = ['E', 'N', 'D', 'I', 'A', 'N', '=', 'L', 'i', 't', 't', 'l', 'e'] then some .little
  else if w = ['E', 'N', 'D', 'I', 'A', 'N', '=', 'B', 'i', 'g'] then some .big
  else none

/-- The configuration line (R60). -/
def parseConfig : List Token → Option Cfg
  | [.word k, .word e, .word c, .word o, .word i] =>
    if k = ['C', 'O', 'N', 'F', 'I', 'G'] then
      match parseEndian e, parseFlag ['C', 'S', '2'] c, parseFlag ['M', 'O', 'S', 'I'] o, parseFlag ['M', 'I', 'S', 'O'] i with
      | some e, some c, some o, some i => some { endian := e, hasCs2 := c, hasMosi := o, hasMiso := i }
      | _, _, _, _ => none
    else none
  | _ => none

/-- A program's text as read: its configuration, if it gives one, and its items in order (R60). -/
structure AsmProgram where
  config : Option Cfg
  items : List AsmItem
  deriving DecidableEq, Repr

/-- Where the reader of a program stands: what it has, the WITH that is open (its number's line 2 or 1, and its body so
far), and the tokens of the unfinished line. -/
structure Reader where
  program : AsmProgram
  block : Option (Bool × List AsmCmd)
  line : List Token
  deriving DecidableEq, Repr

/-- A finished command goes into the open WITH, or else into the program. -/
def Reader.addCommand (r : Reader) (c : AsmCmd) : Reader :=
  match r.block with
  | some (second, body) => { r with block := some (second, body ++ [c]), line := [] }
  | none => { r with program := { r.program with items := r.program.items ++ [.cmd c] }, line := [] }

/-- The end of a line: nothing, the configuration (ahead of the program only), or one command (R60). -/
def Reader.endLine (r : Reader) : Option Reader :=
  match r.line with
  | [] => some r
  | ts =>
    match parseConfig ts with
    | some c =>
      if r.program = { config := none, items := [] } ∧ r.block = none then
        some { r with program := { r.program with config := some c }, line := [] }
      else none
    | none => (parseCommand ts).map r.addCommand

/-- `WITH1` or `WITH2` opens a scope's body; a body holds commands, no second WITH (R61). -/
def Reader.openBlock (r : Reader) : Option Reader :=
  match r.block with
  | some _ => none
  | none =>
    if r.line = [.word ['W', 'I', 'T', 'H', '1']] then some { r with block := some (false, []), line := [] }
    else if r.line = [.word ['W', 'I', 'T', 'H', '2']] then some { r with block := some (true, []), line := [] }
    else none

/-- The closing brace of a WITH. -/
def Reader.closeBlock (r : Reader) : Option Reader :=
  match r.block with
  | none => none
  | some (second, body) =>
    let item := if second then AsmItem.with2 body else AsmItem.with1 body
    some { r with program := { r.program with items := r.program.items ++ [item] }, block := none }

/-- One token. -/
def Reader.feed (r : Reader) : Token → Option Reader
  | .eol => r.endLine
  | .lbrace => r.openBlock
  | .rbrace => r.endLine.bind Reader.closeBlock
  | .word cs => some { r with line := r.line ++ [.word cs] }
  | .comma => some { r with line := r.line ++ [.comma] }

/-- A program's text, or nothing where the text is not one (R60, R61). -/
def parseProgram (text : List Char) : Option AsmProgram :=
  match (lex [] false text).foldlM Reader.feed { program := { config := none, items := [] }, block := none, line := [] } with
  | some r => if r.block = none ∧ r.line = [] then some r.program else none
  | none => none

/-- The command words of a program none of whose commands fails, or nothing where an operand does not fit (R60, R61). -/
def AsmProgram.words (p : AsmProgram) : Option (List CmdWord) :=
  ((p.items.flatMap AsmItem.expand).mapM AsmCmd.assemble).map (List.map encode)

end Sys2Proof.Machine
end

