-- ==== Sys2Proof/Machine/HostScope.lean ====
section
/-! DEFINITION. How a host boots the engine, issues commands and keeps its duty to release (spec/30_encoding.md R60, R61,
spec/44_select_scope.md R99, spec/70_reset_and_hazards.md R133): a driver outside the engine, in terms of the engine's
commands and responses. -/

namespace Sys2Proof.Machine

/-- The status of the response a state presents; OK where none is presented. -/
def State.rspStatus (s : State) : Status :=
  match s.rsp with
  | some r => r.status
  | none => .ok

/-- One command issued: its effect, with the response still presented. -/
def State.issue (s : State) (i : Instr) : State :=
  match exec i s with
  | .next t => t
  | .fault _ => s
  | .refused _ => s

/-- The commands of a body one after another, stopping at the first that answers an error (R61, log 23). -/
def State.issueBody (s : State) : List Instr → State
  | [] => s
  | i :: is => if (s.issue i).rspStatus = .ok then (s.issue i).issueBody is else s.issue i

/-- `WITHk body` (R61): the select; if it succeeds, the body and then the release, however the body ended; if it fails
there is no scope, and neither is issued. -/
def State.runWith (s : State) (sel rel : Instr) (body : List Instr) : State :=
  if (s.issue sel).rspStatus = .ok then ((s.issue sel).issueBody body).issue rel else s.issue sel

/-- A command sequence issued whole, errors and all. -/
def State.issueAll (s : State) (is : List Instr) : State := is.foldl State.issue s

/-- One item of a program issued, or nothing where an operand does not fit (R60, R61). -/
def State.runItem (s : State) : AsmItem → Option State
  | .cmd c => c.assemble.map s.issue
  | .with1 body => (body.mapM AsmCmd.assemble).map (s.runWith .sel1 .rel1)
  | .with2 body => (body.mapM AsmCmd.assemble).map (s.runWith .sel2 .rel2)

/-- The straps of a configuration line; the hold time is not in the line (R60). -/
def strapsOf (c : Cfg) (hold : Ticks) : Straps :=
  { endian := c.endian, hasCs2 := c.hasCs2, hasMosi := c.hasMosi, hasMiso := c.hasMiso, holdTicks := hold }

/-- Reset under straps, then INIT (R133 items 1 and 2). -/
def State.boot (s : State) (p : Straps) : State := (s.construct p).runInit

/-- A program's text run from reset under its own configuration line: the engine booted, then its items in order. Nothing
where the text is no program or gives no configuration. -/
def State.runText (s : State) (hold : Ticks) (text : List Char) : Option State :=
  match parseProgram text with
  | some p =>
    match p.config with
    | some c => p.items.foldlM State.runItem (s.boot (strapsOf c hold))
    | none => none
  | none => none

end Sys2Proof.Machine
end

