-- ==== Sys2Proof/Safety.lean ====
section
/-! DEFINITION. The terms in which claims speak: the events a rule names, what a command leaves unchanged, the statuses a
command can end in, the bus monitor of spec/70_reset_and_hazards.md R135, R136, R145, and the invariant of the engine. -/

namespace Sys2Proof.Machine

/-! ### Events the rules name -/

/-- The three events of one `pulse()` with hold time `h` (R75). -/
def pulseEvents (h : Ticks) : List Event := [.write .sclk true, .hold h, .write .sclk false]

/-- The events of writing one bit (R80). -/
def writeBitEvents (h : Ticks) (b : Level) : List Event := .write .mosi b :: pulseEvents h

/-- The events of reading one bit (R82). -/
def readBitEvents (h : Ticks) (b : Level) : List Event := pulseEvents h ++ [.sample b]

/-- The bits a word write puts on the data-out line, step 0 first (R72). -/
def sentBits (e : Endian) (w : Word) (n : Nat) : List Level := (List.range n).map (fun i => w.getLsbD (idx e n i))

/-- The events of a word write (R84, R85). -/
def writeWordEvents (h : Ticks) (e : Endian) (w : Word) (n : Nat) : List Event :=
  (sentBits e w n).flatMap (writeBitEvents h)

/-- The events of a word read whose samples are `bs`, step 0 first (R89). -/
def readWordEvents (h : Ticks) (bs : List Level) : List Event := bs.flatMap (readBitEvents h)

/-- The events of INIT (R131). -/
def initEvents (c : Cfg) : List Event :=
  [.write .sclk false, .write .cs1 true] ++ (if c.hasCs2 then [.write .cs2 true] else []) ++
    (if c.hasMosi then [.write .mosi false] else [])

/-- The events of CLOSE (R105). -/
def closeEvents (c : Cfg) : List Event :=
  [.dispose .sclk, .dispose .cs1] ++ (if c.hasCs2 then [.dispose .cs2] else []) ++
    (if c.hasMosi then [.dispose .mosi] else []) ++ (if c.hasMiso then [.dispose .miso] else [])

/-- The bits a list of events puts on the data-out line, in order. -/
def mosiBits (es : List Event) : List Level :=
  es.filterMap (fun e => match e with | .write .mosi b => some b | _ => none)

/-- The rising edges of SCLK in a list of events. -/
def risingEdges (es : List Event) : Nat := es.countP (fun e => e == .write .sclk true)

/-- The holds in a list of events. -/
def holdCount (es : List Event) : Nat := es.countP (fun e => match e with | .hold _ => true | _ => false)

/-- The line an event touches; a hold touches none (R5). -/
def eventLine : Event → Option Line
  | .write l _ => some (toLine l)
  | .sample _ => some .miso
  | .dispose l => some l
  | .hold _ => none

/-- Whether an event writes a chip-select line. -/
def isCsWrite : Event → Bool
  | .write .cs1 _ => true
  | .write .cs2 _ => true
  | _ => false

/-! ### What a command leaves unchanged -/

/-- What no command changes: configuration, hold time, INIT's completion, a pending reset, and what belongs to the host
(R3, R4, R18, R19). WDATA, ACC, N, STEP and the model's counter are not named: between commands they are unspecified
(R16, log 6). -/
def Kept (s t : State) : Prop :=
  t.cfg = s.cfg ∧ t.holdTicks = s.holdTicks ∧ t.initDone = s.initDone ∧ t.aborting = s.aborting ∧
    t.inputs = s.inputs ∧ t.delivered = s.delivered

/-- Every output line outside `ls` is as before, and so is every open bit. -/
def LinesKeptBut (ls : List OutLine) (s t : State) : Prop :=
  (∀ l, l ∉ ls → t.lines.out l = s.lines.out l) ∧ ∀ l, t.lines.isOpen l = s.lines.isOpen l

/-- An output line stands at level `v`, driven. -/
def DrivenTo (t : State) (l : OutLine) (v : Level) : Prop := (t.lines.out l).level = v ∧ (t.lines.out l).driven = true

/-- A state that differs from `s` by its response only (R114). -/
def Answered (s : State) (st : Status) (v : Word) : State := { s with rsp := some { status := st, value := v } }

/-- The value of an OUT_OF_RANGE response by its bits: 7:0 the count, 15:8 the width, the rest 0 (R59). -/
def rangeValue (n : BitCount) (width : BitVec 8) : Word := (0#48 ++ width) ++ n

/-- What R95 to R98 say of a select or release of line `l` to level `v` with result `r`, on an open engine that has the
line: exactly one event, the response, nothing else changed but that line, and the phase afterwards. -/
def DrivesOnly (i : Instr) (l : OutLine) (v : Level) (r : Word) (ph : Phase) (s : State) : Prop :=
  ∃ t, exec i s = .next t ∧ t.trace = s.trace ++ [.write l v] ∧ t.rsp = some { status := .ok, value := r } ∧
    DrivenTo t l v ∧ LinesKeptBut [l] s t ∧ Kept s t ∧ t.closed = s.closed ∧ t.misoIn = s.misoIn ∧
    (s.initDone = true → t.phase = ph)

/-- What R84 to R88 say of a word write `i` of `n` bits of `w` from an encoding of `width` bits: the three errors in the
order of the checks, and the whole effect otherwise. -/
def WritesWord (i : Instr) (width : BitVec 8) (w : Word) (n : BitCount) (s : State) : Prop :=
  (s.closed = true → exec i s = .next (Answered s .closed 0)) ∧
  (s.closed = false → width < n → exec i s = .next (Answered s .outOfRange (rangeValue n width))) ∧
  (s.closed = false → n ≤ width → n ≠ 0 → s.cfg.hasMosi = false → exec i s = .next (Answered s .unsupported 3)) ∧
  (s.closed = false → n ≤ width → (n = 0 ∨ s.cfg.hasMosi = true) →
    ∃ t, exec i s = .next t ∧ t.trace = s.trace ++ writeWordEvents s.holdTicks s.cfg.endian w n.toNat ∧
      t.rsp = some { status := .ok, value := 0 } ∧ LinesKeptBut [.sclk, .mosi] s t ∧ Kept s t ∧
      t.closed = s.closed ∧ t.misoIn = s.misoIn ∧
      (n = 0 → t.lines = s.lines) ∧
      (n ≠ 0 → DrivenTo t .sclk false ∧ DrivenTo t .mosi (w.getLsbD (idx s.cfg.endian n.toNat (n.toNat - 1)))))

/-! ### The statuses -/

/-- A word command's bit count exceeds the width of its encoding (the table of R111). -/
def overRange : Instr → Bool
  | .ww8 _ n => 8 < n.toNat
  | .ww16 _ n => 16 < n.toNat
  | .ww32 _ n => 32 < n.toNat
  | .ww64 _ n => 64 < n.toNat
  | .rw n => 64 < n.toNat
  | .sel1 | .sel2 | .rel1 | .rel2 | .wbit _ | .rbit | .close => false

/-- A line the command will use is absent (the table of R110, R115 item 4). -/
def lacksLine (c : Cfg) : Instr → Bool
  | .sel2 | .rel2 => !c.hasCs2
  | .wbit _ => !c.hasMosi
  | .rbit => !c.hasMiso
  | .ww8 _ n | .ww16 _ n | .ww32 _ n | .ww64 _ n => !c.hasMosi && n != 0
  | .rw n => !c.hasMiso && n != 0
  | .sel1 | .rel1 | .close => false

/-- The bits a command transfers when it succeeds (R79). -/
def bitsTransferred : Instr → Nat
  | .wbit _ | .rbit => 1
  | .ww8 _ n | .ww16 _ n | .ww32 _ n | .ww64 _ n | .rw n => n.toNat
  | .sel1 | .sel2 | .rel1 | .rel2 | .close => 0

/-- Whether a command samples MISO when it succeeds (R30). -/
def readsMiso : Instr → Bool
  | .rbit | .rw _ => true
  | .sel1 | .sel2 | .rel1 | .rel2 | .wbit _ | .ww8 _ _ | .ww16 _ _ | .ww32 _ _ | .ww64 _ _ | .close => false

/-- The width, the word and the bit count of a word write; nothing for the other commands (R53, R84). -/
def writeParts : Instr → Option (Nat × Word × BitCount)
  | .ww8 w n => some (8, w.setWidth 64, n)
  | .ww16 w n => some (16, w.setWidth 64, n)
  | .ww32 w n => some (32, w.setWidth 64, n)
  | .ww64 w n => some (64, w, n)
  | .sel1 | .sel2 | .rel1 | .rel2 | .wbit _ | .rbit | .rw _ | .close => none

/-- The line id an UNSUPPORTED response of a command names (the table of R110). -/
def missingLineId : Instr → Word
  | .sel2 | .rel2 => 2
  | .wbit _ | .ww8 _ _ | .ww16 _ _ | .ww32 _ _ | .ww64 _ _ => 3
  | .rbit | .rw _ => 4
  | .sel1 | .rel1 | .close => 0

/-- The value an OUT_OF_RANGE response of a command carries (the table of R111). -/
def overRangeValue : Instr → Word
  | .ww8 _ n => rangeValue n 8
  | .ww16 _ n => rangeValue n 16
  | .ww32 _ n => rangeValue n 32
  | .ww64 _ n => rangeValue n 64
  | .rw n => rangeValue n 64
  | .sel1 | .sel2 | .rel1 | .rel2 | .wbit _ | .rbit | .close => 0

/-! ### The bus monitor -/

/-- What a watcher of the lines knows: their state, and whether the hold of the current high phase has elapsed. -/
structure Monitor where
  lines : Lines
  held : Bool
  deriving DecidableEq, Repr

/-- SCLK is driven high by the engine, which drives no disposed line (R106). -/
def Lines.sclkHigh (ln : Lines) : Bool := ln.sclk.isOpen && ln.sclk.driven && ln.sclk.level

/-- Whether an event may come now. A line is touched only while open (R31, R46). SCLK rises from a driven low, and falls
after exactly one hold of `h` (R75, R77); undriven it may be driven low (INIT). MOSI, CS1 and CS2 are written, MISO is
sampled and a line is disposed only while SCLK is low (R135, R136, R145). -/
def Monitor.allows (h : Ticks) (m : Monitor) : Event → Bool
  | .write .sclk true => m.lines.sclk.isOpen && m.lines.sclk.driven && !m.lines.sclk.level
  | .write .sclk false => m.lines.sclk.isOpen && (!m.lines.sclk.driven || (m.lines.sclk.level && m.held))
  | .write .cs1 _ => m.lines.cs1.isOpen && !m.lines.sclkHigh
  | .write .cs2 _ => m.lines.cs2.isOpen && !m.lines.sclkHigh
  | .write .mosi _ => m.lines.mosi.isOpen && !m.lines.sclkHigh
  | .hold t => t == h && m.lines.sclkHigh && !m.held
  | .sample _ => m.lines.misoOpen && !m.lines.sclkHigh
  | .dispose l => m.lines.isOpen l && !m.lines.sclkHigh

/-- The monitor after an event it allows. -/
def Monitor.next (h : Ticks) (m : Monitor) (e : Event) : Option Monitor :=
  if m.allows h e then
    some { lines := m.lines.apply e, held := match e with | .hold _ => true | .write .sclk _ => false | _ => m.held }
  else none

/-- The monitor after a list of events, if it allows them all. -/
def Monitor.run (h : Ticks) (m : Monitor) : List Event → Option Monitor
  | [] => some m
  | e :: es =>
    match m.next h e with
    | some m' => Monitor.run h m' es
    | none => none

/-- The monitor at reset: present lines open, nothing driven (R130), in the life of the engine that `k` numbers. -/
def Monitor.start (c : Cfg) (k : Nat) : Monitor := { lines := Lines.atReset c k, held := false }

/-- THE INVARIANT of the engine. `bus`: the whole trace since reset is one the monitor allows, and the lines are what the
trace makes them (R11, R145). `unborn`: before INIT nothing has happened (R130). `boundary`: at every command boundary
after INIT, SCLK has been driven, and it stands low as long as it is not disposed (R79, R106). `opened`: the open lines are the present ones,
until CLOSE (R11, R105).
`cutOff`: a reset cuts a command short only after INIT, and leaves it without a response (R134). -/
structure Inv (s : State) : Prop where
  bus : ∃ held, (Monitor.start s.cfg s.lines.epoch).run s.holdTicks s.trace = some { lines := s.lines, held := held }
  unborn : s.initDone = false → s.trace = [] ∧ s.closed = false ∧ s.rsp = none
  boundary : s.initDone = true → s.aborting = none →
    s.lines.sclk.driven = true ∧ (s.closed = false → s.lines.sclk.level = false)
  opened : s.aborting = none → ∀ l, s.lines.isOpen l = (s.cfg.present l && !s.closed)
  cutOff : s.aborting ≠ none → s.initDone = true ∧ s.rsp = none

/-- A reset takes effect in this step, with straps `p` (R130, R134). -/
def ResetsWith (s : State) (p : Straps) : Prop :=
  s.aborting = some p ∨
    (s.aborting = none ∧
      (s.port.rst = .high p ∨ ∃ k, s.port.rst = .rises k p ∧ ¬(s.cmdReady = true ∧ s.port.cmd ≠ none)))

/-- The engine takes the command word `w` in this step, with no reset (R51). -/
def Takes (s : State) (w : CmdWord) : Prop :=
  s.cmdReady = true ∧ s.port.rst = .low ∧ s.port.cmd = some w

/-- Both chip-selects are open and low at once (R142). The level of a disposed line means nothing (R106). -/
def bothSelected (s : State) : Bool :=
  s.lines.cs1.isOpen && !s.lines.cs1.level && s.cfg.hasCs2 && s.lines.cs2.isOpen && !s.lines.cs2.level

end Sys2Proof.Machine
end

