-- ==== Sys2Proof/Certificates/Slice0/Obligations.lean ====
section
/-! DEFINITION. The statements for the provers. Each docstring names the rule of the spec it formalises. -/

open Sys2Proof Sys2Proof.Machine

/-! ### Reset, INIT and configuration -/

/-- R130: while `rst = 1` the straps are sampled, `closed` is cleared, every present line is open, no line is driven, the
trace is empty, no response is presented, no command is taken, and the phase is Constructed. What the host and the
environment have still to give stays. Nothing is said of the levels and of the data path, which reset leaves unspecified. -/
def Obligations.ResetConstructsTheEngine : Prop :=
  ∀ (s : State) (p : Straps), s.aborting = none → s.port.rst = .high p →
    ∃ t, step s = .next t ∧
      t.cfg = { endian := p.endian, hasCs2 := p.hasCs2, hasMosi := p.hasMosi, hasMiso := p.hasMiso } ∧
      t.holdTicks = p.holdTicks ∧ t.closed = false ∧ t.trace = [] ∧ t.rsp = none ∧ t.aborting = none ∧
      (∀ l, t.lines.isOpen l = t.cfg.present l) ∧ (∀ l, t.outEnable l = false) ∧
      t.cmdReady = false ∧ t.phase = .constructed ∧ t.busy = true ∧
      t.inputs = s.inputs.tail ∧ t.misoIn = s.misoIn ∧ t.delivered = s.delivered

/-- 10_state.md §9, first column: the values out of reset that the spec gives, in `State.reset`. Under which straps it
stands is the model's choice (log 2, log 3); nothing is said of what reset leaves unspecified (log 4, log 5). -/
def Obligations.ResetStateHoldsTheTableValues : Prop :=
  State.reset.closed = false ∧ State.reset.trace = [] ∧ State.reset.rspValid = false ∧
    (∀ l, State.reset.lines.isOpen l = State.reset.cfg.present l) ∧ (∀ l, State.reset.outEnable l = false) ∧
    State.reset.phase = .constructed ∧ State.reset.busy = true ∧ State.reset.cmdReady = false

/-- R131: INIT runs by itself before any command is taken, whatever the host presents: its events in order, the levels
after it, `closed = 0`, phase Idle. MISO is not sampled and no line is opened or closed. -/
def Obligations.InitDrivesTheLinesIdle : Prop :=
  ∀ s : State, s.initDone = false → s.aborting = none → s.closed = false → s.port.rst = .low →
    ∃ t, step s = .next t ∧ t.trace = s.trace ++ initEvents s.cfg ∧
      DrivenTo t .sclk false ∧ DrivenTo t .cs1 true ∧
      (s.cfg.hasCs2 = true → DrivenTo t .cs2 true) ∧ (s.cfg.hasMosi = true → DrivenTo t .mosi false) ∧
      (s.cfg.hasCs2 = false → t.lines.cs2 = s.lines.cs2) ∧ (s.cfg.hasMosi = false → t.lines.mosi = s.lines.mosi) ∧
      (∀ l, t.lines.isOpen l = s.lines.isOpen l) ∧
      t.closed = false ∧ t.initDone = true ∧ t.phase = .idle ∧ t.rsp = s.rsp ∧ t.misoIn = s.misoIn ∧
      t.cfg = s.cfg ∧ t.holdTicks = s.holdTicks ∧ t.inputs = s.inputs.tail

/-- R3, R4, R18, R19: no command, no INIT and no handshake changes the configuration or the hold time; only a reset does,
and it samples the straps. -/
def Obligations.ConfigurationChangesOnlyAtReset : Prop :=
  ∀ s t : State, step s = .next t →
    (t.cfg = s.cfg ∧ t.holdTicks = s.holdTicks) ∨
    ∃ p, ResetsWith s p ∧ t.holdTicks = p.holdTicks ∧
      t.cfg = { endian := p.endian, hasCs2 := p.hasCs2, hasMosi := p.hasMosi, hasMiso := p.hasMiso }

/-! ### The synchronizer and the serializer -/

/-- R75, R78: one `pulse()` appends its three events, leaves SCLK driven low and touches nothing else. -/
def Obligations.PulseAppendsItsThreeEvents : Prop :=
  ∀ s : State, s.pulse.trace = s.trace ++ [.write .sclk true, .hold s.holdTicks, .write .sclk false] ∧
    DrivenTo s.pulse .sclk false ∧ LinesKeptBut [.sclk] s s.pulse ∧
    s.pulse = { s with trace := s.pulse.trace, lines := s.pulse.lines }

/-- R70, R71: the two formulas, and for fixed `n` in 1 to 64 each is a bijection of the indices below `n`. -/
def Obligations.IndexFunctionIsABijection : Prop :=
  (∀ n i, idx .big n i = i) ∧ (∀ n i, i < n → idx .little n i = n - 1 - i) ∧
  ∀ (e : Endian) (n : Nat), 1 ≤ n → n ≤ 64 →
    (∀ i, i < n → idx e n i ≤ n - 1) ∧
    (∀ i j, i < n → j < n → idx e n i = idx e n j → i = j) ∧
    (∀ k, k < n → ∃ i, i < n ∧ idx e n i = k)

/-! ### The commands, each with its errors, its whole effect and its frame -/

/-- R95. -/
def Obligations.Sel1AssertsChipSelectOne : Prop :=
  (∀ n d, decode (packCmd 0x1 n d) = .instr .sel1) ∧
  ∀ s : State, (s.closed = true → exec .sel1 s = .next (Answered s .closed 0)) ∧
    (s.closed = false → DrivesOnly .sel1 .cs1 false 1 .selected s)

/-- R96. -/
def Obligations.Sel2AssertsChipSelectTwo : Prop :=
  (∀ n d, decode (packCmd 0x2 n d) = .instr .sel2) ∧
  ∀ s : State, (s.closed = true → exec .sel2 s = .next (Answered s .closed 0)) ∧
    (s.closed = false → s.cfg.hasCs2 = false → exec .sel2 s = .next (Answered s .unsupported 2)) ∧
    (s.closed = false → s.cfg.hasCs2 = true → DrivesOnly .sel2 .cs2 false 2 .selected s)

/-- R97: whatever the level of CS1; CS2 keeps its level, and the phase afterwards is Idle only if CS2 is absent or idle. -/
def Obligations.Rel1DeassertsChipSelectOne : Prop :=
  (∀ n d, decode (packCmd 0x3 n d) = .instr .rel1) ∧
  ∀ s : State, (s.closed = true → exec .rel1 s = .next (Answered s .closed 0)) ∧
    (s.closed = false →
      DrivesOnly .rel1 .cs1 true 0 (if s.cfg.hasCs2 = true ∧ s.lines.cs2.level = false then .selected else .idle) s)

/-- R98. -/
def Obligations.Rel2DeassertsChipSelectTwo : Prop :=
  (∀ n d, decode (packCmd 0x4 n d) = .instr .rel2) ∧
  ∀ s : State, (s.closed = true → exec .rel2 s = .next (Answered s .closed 0)) ∧
    (s.closed = false → s.cfg.hasCs2 = false → exec .rel2 s = .next (Answered s .unsupported 2)) ∧
    (s.closed = false → s.cfg.hasCs2 = true →
      DrivesOnly .rel2 .cs2 true 0 (if s.lines.cs1.level = false then .selected else .idle) s)

/-- R80: whatever the phase. -/
def Obligations.WbitSetsDataThenPulses : Prop :=
  (∀ n d, decode (packCmd 0x5 n d) = .instr (.wbit (d.getLsbD 0))) ∧
  ∀ (b : Level) (s : State), (s.closed = true → exec (.wbit b) s = .next (Answered s .closed 0)) ∧
    (s.closed = false → s.cfg.hasMosi = false → exec (.wbit b) s = .next (Answered s .unsupported 3)) ∧
    (s.closed = false → s.cfg.hasMosi = true →
      ∃ t, exec (.wbit b) s = .next t ∧
        t.trace = s.trace ++ [.write .mosi b, .write .sclk true, .hold s.holdTicks, .write .sclk false] ∧
        t.rsp = some { status := .ok, value := 0 } ∧ DrivenTo t .mosi b ∧ DrivenTo t .sclk false ∧
        LinesKeptBut [.sclk, .mosi] s t ∧ Kept s t ∧ t.closed = s.closed ∧ t.misoIn = s.misoIn)

/-- R82: the bit is the environment's choice: the first of its listed answers where there is one, else any bit. -/
def Obligations.RbitPulsesThenSamples : Prop :=
  (∀ n d, decode (packCmd 0x6 n d) = .instr .rbit) ∧
  ∀ s : State, (s.closed = true → exec .rbit s = .next (Answered s .closed 0)) ∧
    (s.closed = false → s.cfg.hasMiso = false → exec .rbit s = .next (Answered s .unsupported 4)) ∧
    (s.closed = false → s.cfg.hasMiso = true →
      ∃ (t : State) (b : Level), exec .rbit s = .next t ∧ s.misoIn.take 1 <+: [b] ∧
        t.trace = s.trace ++ [.write .sclk true, .hold s.holdTicks, .write .sclk false, .sample b] ∧
        t.rsp = some { status := .ok, value := if b then 1 else 0 } ∧ DrivenTo t .sclk false ∧
        LinesKeptBut [.sclk] s t ∧ Kept s t ∧ t.closed = s.closed ∧ t.misoIn = s.misoIn.drop 1)

/-- R84, R85. -/
def Obligations.Ww8SendsTheLowBits : Prop :=
  (∀ n d, decode (packCmd 0x7 n d) = .instr (.ww8 (d.setWidth 8) n)) ∧
  ∀ (w : BitVec 8) (n : BitCount) (s : State), WritesWord (.ww8 w n) 8 (w.setWidth 64) n s

/-- R86. -/
def Obligations.Ww16SendsTheLowBits : Prop :=
  (∀ n d, decode (packCmd 0x8 n d) = .instr (.ww16 (d.setWidth 16) n)) ∧
  ∀ (w : BitVec 16) (n : BitCount) (s : State), WritesWord (.ww16 w n) 16 (w.setWidth 64) n s

/-- R87. -/
def Obligations.Ww32SendsTheLowBits : Prop :=
  (∀ n d, decode (packCmd 0x9 n d) = .instr (.ww32 (d.setWidth 32) n)) ∧
  ∀ (w : BitVec 32) (n : BitCount) (s : State), WritesWord (.ww32 w n) 32 (w.setWidth 64) n s

/-- R88. -/
def Obligations.Ww64SendsTheLowBits : Prop :=
  (∀ n d, decode (packCmd 0xA n d) = .instr (.ww64 d n)) ∧
  ∀ (w : BitVec 64) (n : BitCount) (s : State), WritesWord (.ww64 w n) 64 w n s

/-- R89, R73: `n` pulses with one sample after each; the value has sample `i` at bit `idx(n, i)` and zeros from bit `n` on.
The samples are the environment's listed answers as far as they go, then any bits. -/
def Obligations.RwGathersTheSamples : Prop :=
  (∀ n d, decode (packCmd 0xB n d) = .instr (.rw n)) ∧
  ∀ (n : BitCount) (s : State), (s.closed = true → exec (.rw n) s = .next (Answered s .closed 0)) ∧
    (s.closed = false → 64 < n.toNat → exec (.rw n) s = .next (Answered s .outOfRange (rangeValue n 64))) ∧
    (s.closed = false → n.toNat ≤ 64 → n ≠ 0 → s.cfg.hasMiso = false →
      exec (.rw n) s = .next (Answered s .unsupported 4)) ∧
    (s.closed = false → n.toNat ≤ 64 → (n = 0 ∨ s.cfg.hasMiso = true) →
      ∃ (t : State) (bs : List Level) (v : Word), exec (.rw n) s = .next t ∧ bs.length = n.toNat ∧
        s.misoIn.take n.toNat <+: bs ∧ t.trace = s.trace ++ readWordEvents s.holdTicks bs ∧
        t.rsp = some { status := .ok, value := v } ∧
        (∀ i, i < n.toNat → v.getLsbD (idx s.cfg.endian n.toNat i) = bs.getD i false) ∧
        (∀ j, n.toNat ≤ j → v.getLsbD j = false) ∧
        LinesKeptBut [.sclk] s t ∧ Kept s t ∧ t.closed = s.closed ∧ t.misoIn = s.misoIn.drop n.toNat ∧
        (n = 0 → t.lines = s.lines) ∧ (n ≠ 0 → DrivenTo t .sclk false))

/-- R105, R107, R108: one dispose event per present line, in the fixed order, no write, `closed` set, phase Closed. No
level of a disposed line is claimed (R106). -/
def Obligations.CloseDisposesEveryPresentLineOnce : Prop :=
  (∀ n d, decode (packCmd 0xC n d) = .instr .close) ∧
  ∀ s : State, (s.closed = true → exec .close s = .next (Answered s .closed 0)) ∧
    (s.closed = false →
      ∃ t, exec .close s = .next t ∧ t.trace = s.trace ++ closeEvents s.cfg ∧
        t.rsp = some { status := .ok, value := 0 } ∧ t.closed = true ∧
        (∀ l, t.lines.isOpen l = (s.lines.isOpen l && !s.cfg.present l)) ∧
        (∀ l, t.outEnable l = false) ∧ (s.initDone = true → t.phase = .closed) ∧ Kept s t ∧ t.misoIn = s.misoIn)

/-! ### Errors -/

/-- R112: every command, CLOSE included, is refused with CLOSED, value 0, and no other effect. -/
def Obligations.ClosedEngineRefusesEveryCommand : Prop :=
  ∀ (i : Instr) (s : State), s.closed = true → exec i s = .next (Answered s .closed 0)

/-- R113, R55: a reserved opcode is ILLEGAL, value 0, whatever the phase, closed included, and has no other effect. -/
def Obligations.ReservedOpcodeAnswersIllegal : Prop :=
  ∀ (s : State) (w : CmdWord), Takes s w → (cmdOp w = 0x0 ∨ cmdOp w = 0xD ∨ cmdOp w = 0xE ∨ cmdOp w = 0xF) →
    step s = .next (Answered { s with inputs := s.inputs.tail } .illegal 0)

/-- R115, R56: every command taken answers exactly one response, whose status is decided by the checks in their order. -/
def Obligations.StatusFollowsTheOrderedChecks : Prop :=
  ∀ (s : State) (w : CmdWord), Takes s w →
    ∃ (t : State) (r : Response), step s = .next t ∧ t.rsp = some r ∧
      r.status =
        match decode w with
        | .reserved _ => .illegal
        | .instr i =>
          if s.closed then .closed
          else if overRange i then .outOfRange
          else if lacksLine s.cfg i then .unsupported
          else .ok

/-- R110: UNSUPPORTED is raised by exactly the commands and conditions of the table, with the missing line's id, before any
line is touched. (A closed engine answers CLOSED before the line is looked at, R115.) -/
def Obligations.UnsupportedExactlyWhenALineIsAbsent : Prop :=
  ∀ (i : Instr) (s : State),
    ∃ (t : State) (r : Response), exec i s = .next t ∧ t.rsp = some r ∧
      (r.status = .unsupported ↔ s.closed = false ∧ overRange i = false ∧ lacksLine s.cfg i = true) ∧
      (r.status = .unsupported → r.value = missingLineId i ∧ t.trace = s.trace ∧ t.lines = s.lines)

/-- R111: OUT_OF_RANGE is raised by exactly the word commands whose bit count exceeds the width, with both in the value,
before any line is touched. (A closed engine answers CLOSED before the count is looked at, R115.) -/
def Obligations.OutOfRangeExactlyWhenTheCountExceeds : Prop :=
  ∀ (i : Instr) (s : State),
    ∃ (t : State) (r : Response), exec i s = .next t ∧ t.rsp = some r ∧
      (r.status = .outOfRange ↔ s.closed = false ∧ overRange i = true) ∧
      (r.status = .outOfRange → r.value = overRangeValue i ∧ t.trace = s.trace ∧ t.lines = s.lines)

/-- R114: a command that ends in an error, a reserved opcode included, changes nothing but the response. -/
def Obligations.ErrorsChangeNothingButTheResponse : Prop :=
  (∀ (i : Instr) (s t : State) (r : Response), exec i s = .next t → t.rsp = some r → r.status ≠ .ok →
    t = { s with rsp := some r }) ∧
  ∀ (s t : State) (w : CmdWord) (r : Response), Takes s w → step s = .next t → t.rsp = some r → r.status ≠ .ok →
    t = { s with inputs := s.inputs.tail, rsp := some r }

/-! ### The channels -/

/-- R51, R41: a command is taken only when the engine is ready; its one response is presented after its last event, and the
engine is then not ready until the response is taken. -/
def Obligations.TakingACommandLeavesAResponsePending : Prop :=
  ∀ (s : State) (w : CmdWord), Takes s w →
    ∃ t, step s = .next t ∧ t.rspValid = true ∧ t.cmdReady = false ∧ t.inputs = s.inputs.tail ∧
      t.delivered = s.delivered

/-- R57: the response is held, and no command taken, until `rsp_ready`; then the host has it and the channel is free. -/
def Obligations.ResponseIsHeldUntilTaken : Prop :=
  ∀ (s : State) (r : Response), s.initDone = true → s.aborting = none → s.rsp = some r → s.port.rst = .low →
    (s.port.rspReady = false → step s = .next { s with inputs := s.inputs.tail }) ∧
    (s.port.rspReady = true →
      step s = .next { s with inputs := s.inputs.tail, rsp := none, delivered := s.delivered ++ [r] })

/-- A step runs the decoded command: when the engine takes a word that decodes to `i`, the step is `exec i`, with this
step's port sample used up. -/
def Obligations.StepRunsTheDecodedCommand : Prop :=
  ∀ (s : State) (w : CmdWord) (i : Instr), Takes s w → decode w = .instr i →
    step s = exec i { s with inputs := s.inputs.tail }

/-- R134: when `rst` rises during a command, the first `k` of the command's events have happened and no more, with their
effect on the lines; there is no response, and the next step is the reset. -/
def Obligations.ResetDuringACommandCutsItShort : Prop :=
  ∀ (s : State) (w : CmdWord) (k : Nat) (p : Straps), s.cmdReady = true → s.port.cmd = some w →
    s.port.rst = .rises k p →
    ∃ (whole t : State) (es : List Event), State.runWord { s with inputs := s.inputs.tail } w = .next whole ∧
      whole.trace = s.trace ++ es ∧ step s = .next t ∧ t.trace = s.trace ++ es.take k ∧
      t.lines = s.lines.replay (es.take k) ∧ t.rsp = none ∧ t.cfg = s.cfg ∧ t.closed = s.closed ∧
      ∃ u, step t = .next u ∧ u.trace = [] ∧ u.phase = .constructed ∧ u.holdTicks = p.holdTicks ∧
        u.cfg = { endian := p.endian, hasCs2 := p.hasCs2, hasMosi := p.hasMosi, hasMiso := p.hasMiso } ∧
        (∀ l, u.outEnable l = false) ∧ u.aborting = none

/-! ### Encoding -/

/-- R50, R52, R53, R54: what the decoder reads from each opcode's fields, every other bit ignored; the rest is reserved. -/
def Obligations.DecoderReadsTheFields : Prop :=
  ∀ (op : BitVec 4) (n : BitCount) (d : Word),
    decode (packCmd op n d) =
      if op = 0x1 then .instr .sel1
      else if op = 0x2 then .instr .sel2
      else if op = 0x3 then .instr .rel1
      else if op = 0x4 then .instr .rel2
      else if op = 0x5 then .instr (.wbit (d.getLsbD 0))
      else if op = 0x6 then .instr .rbit
      else if op = 0x7 then .instr (.ww8 (d.setWidth 8) n)
      else if op = 0x8 then .instr (.ww16 (d.setWidth 16) n)
      else if op = 0x9 then .instr (.ww32 (d.setWidth 32) n)
      else if op = 0xA then .instr (.ww64 d n)
      else if op = 0xB then .instr (.rw n)
      else if op = 0xC then .instr .close
      else .reserved op

/-- R52: the table of match and mask selects exactly the command the decoder reads: a word matches a row if and only if
it decodes to a command of that row's mnemonic. -/
def Obligations.OpcodeTableSelectsTheCommand : Prop :=
  ∀ (w : CmdWord) (row : String × CmdWord), row ∈ opcodeTable →
    (w &&& opcodeMask = row.2 ↔ ∃ i, decode w = .instr i ∧ i.mnemonic = row.1)

/-- R55: the reserved opcodes are exactly 0x0, 0xD, 0xE and 0xF, and no other word is refused. -/
def Obligations.ExactlyFourOpcodesAreReserved : Prop :=
  ∀ w : CmdWord, (∃ op, decode w = .reserved op) ↔
    (cmdOp w = 0x0 ∨ cmdOp w = 0xD ∨ cmdOp w = 0xE ∨ cmdOp w = 0xF)

/-- Decoding the encoding of a command gives the command back, with every operand at every value. -/
def Obligations.DecodeOfEncodeGivesTheCommandBack : Prop :=
  ∀ i : Instr, decode (encode i) = .instr i

/-- Words of 95_test_vectors.md, written out from the fields of R50, decode to the commands they stand for. -/
def Obligations.SpecWordsDecodeToTheirCommands : Prop :=
  decode 0x1000000000000000000#76 = .instr .sel1 ∧
  decode 0x5FFFFFFFFFFFFFFFFFE#76 = .instr (.wbit false) ∧
  decode 0x6000000000000000000#76 = .instr .rbit ∧
  decode 0x70800000000000000B4#76 = .instr (.ww8 0xB4 8) ∧
  decode 0x80C000000000000ABCD#76 = .instr (.ww16 0xABCD 12) ∧
  decode 0x92000000000DEADBEEF#76 = .instr (.ww32 0xDEADBEEF 32) ∧
  decode 0xA400123456789ABCDEF#76 = .instr (.ww64 0x0123456789ABCDEF 64) ∧
  decode 0xB04FFFFFFFFFFFFFFFF#76 = .instr (.rw 4) ∧
  decode 0xC000000000000000000#76 = .instr .close

/-- R60: the assembler takes back what the text of a command says, and refuses exactly the operands that do not fit. -/
def Obligations.AssemblerRefusesExactlyWhatDoesNotFit : Prop :=
  (∀ i : Instr, i.toAsm.assemble = some i) ∧
  (∀ c : AsmCmd, c.assemble = none ↔ c.wellFormed = false) ∧
  (∀ (c : AsmCmd) (i : Instr), c.assemble = some i → i.toAsm = c)

/-- R56, R58, R59: the response word has the status code in bits 66:64 and the value below. -/
def Obligations.ResponseWordHoldsStatusAndValue : Prop :=
  ∀ r : Response, r.toBits.extractLsb' 0 64 = r.value ∧
    r.toBits.extractLsb' 64 3 =
      match r.status with
      | .ok => 0
      | .unsupported => 1
      | .outOfRange => 2
      | .closed => 3
      | .illegal => 4

/-! ### Views -/

/-- R18, R20, R21: the bits of the registers CFG, STATUS and LINES. -/
def Obligations.RegisterBitsAreWhereTheTablesPutThem : Prop :=
  (∀ c : Cfg, c.toBits.getLsbD 0 = decide (c.endian = .big) ∧ c.toBits.getLsbD 1 = c.hasCs2 ∧
    c.toBits.getLsbD 2 = c.hasMosi ∧ c.toBits.getLsbD 3 = c.hasMiso) ∧
  ∀ s : State, s.statusReg.getLsbD 2 = s.busy ∧
    s.statusReg.extractLsb' 0 2 =
      (match s.phase with
        | .constructed => 0
        | .idle => 1
        | .selected => 2
        | .closed => 3) ∧
    s.linesReg.getLsbD 0 = s.lines.sclk.level ∧ s.linesReg.getLsbD 1 = s.lines.cs1.level ∧
    s.linesReg.getLsbD 2 = (if s.cfg.hasCs2 then s.lines.cs2.level else true) ∧
    s.linesReg.getLsbD 3 = (if s.cfg.hasMosi then s.lines.mosi.level else false) ∧
    ∀ l, s.linesReg.getLsbD (4 + (lineId l).toNat) = s.lines.isOpen l

/-! ### Rules of the words and the bus -/

/-- R33, R72: under LittleEndian the `n` bits go out from bit `n - 1` down to bit 0, under BigEndian from bit 0 up. -/
def Obligations.EndianFixesTheOrderOnTheLine : Prop :=
  ∀ (i : Instr) (k : Nat) (w : Word) (n : BitCount) (s : State), writeParts i = some (k, w, n) →
    s.closed = false → n.toNat ≤ k → s.cfg.hasMosi = true →
    ∃ t, exec i s = .next t ∧
      mosiBits (t.trace.drop s.trace.length) =
        match s.cfg.endian with
        | .big => (List.range n.toNat).map (fun j => w.getLsbD j)
        | .little => ((List.range n.toNat).map (fun j => w.getLsbD j)).reverse

/-- R74: the bits a word write put on the line, replayed in order as the samples of a word read of the same count under
the same ENDIAN, read back as `w mod 2^n`. -/
def Obligations.ReplayedWordReadsBackModuloPowerOfTwo : Prop :=
  ∀ (i : Instr) (k : Nat) (w : Word) (n : BitCount) (s : State), writeParts i = some (k, w, n) →
    s.closed = false → n.toNat ≤ k → s.cfg.hasMosi = true →
    ∃ t, exec i s = .next t ∧
      ∀ u : State, u.closed = false → u.cfg.hasMiso = true → u.cfg.endian = s.cfg.endian →
        u.misoIn = mosiBits (t.trace.drop s.trace.length) →
        ∃ v, exec (.rw n) u = .next v ∧
          v.rsp = some { status := .ok, value := BitVec.ofNat 64 (w.toNat % 2 ^ n.toNat) }

/-- R74, last sentence: a write under one ENDIAN read back under the other returns the `n`-bit reversal. -/
def Obligations.ReplayedUnderTheOtherEndianReversesTheBits : Prop :=
  ∀ (i : Instr) (k : Nat) (w : Word) (n : BitCount) (s : State), writeParts i = some (k, w, n) →
    s.closed = false → n.toNat ≤ k → s.cfg.hasMosi = true →
    ∃ t, exec i s = .next t ∧
      ∀ u : State, u.closed = false → u.cfg.hasMiso = true → u.cfg.endian ≠ s.cfg.endian →
        u.misoIn = mosiBits (t.trace.drop s.trace.length) →
        ∃ (v : State) (x : Word), exec (.rw n) u = .next v ∧ v.rsp = some { status := .ok, value := x } ∧
          (∀ j, j < n.toNat → x.getLsbD j = w.getLsbD (n.toNat - 1 - j)) ∧ ∀ j, n.toNat ≤ j → x.getLsbD j = false

/-- R90: a word write is indistinguishable on the lines from its bits sent by successive WBIT commands. -/
def Obligations.WordWriteEqualsItsBitWrites : Prop :=
  ∀ (i : Instr) (k : Nat) (w : Word) (n : BitCount) (s : State), writeParts i = some (k, w, n) →
    s.closed = false → n.toNat ≤ k → s.cfg.hasMosi = true →
    ∃ t, exec i s = .next t ∧
      t.trace = (s.issueAll ((sentBits s.cfg.endian w n.toNat).map Instr.wbit)).trace ∧
      t.lines = (s.issueAll ((sentBits s.cfg.endian w n.toNat).map Instr.wbit)).lines

/-- R90: a word read is indistinguishable on the lines from as many successive RBIT commands, where the environment
answers the same. -/
def Obligations.WordReadEqualsItsBitReads : Prop :=
  ∀ (n : BitCount) (s : State), s.closed = false → n.toNat ≤ 64 → s.cfg.hasMiso = true → n.toNat ≤ s.misoIn.length →
    ∃ t, exec (.rw n) s = .next t ∧
      t.trace = (s.issueAll (List.replicate n.toNat Instr.rbit)).trace ∧
      t.lines = (s.issueAll (List.replicate n.toNat Instr.rbit)).lines

/-- R79, R90: a successful command adds as many rising edges as it transfers bits; a write adds as many MOSI writes, a
read as many samples, and no other command adds any. -/
def Obligations.RisingEdgesCountTheBitsTransferred : Prop :=
  ∀ (i : Instr) (s t : State), exec i s = .next t → t.rspStatus = .ok →
    ∃ es, t.trace = s.trace ++ es ∧ risingEdges es = bitsTransferred i ∧
      (mosiBits es).length = (if readsMiso i then 0 else bitsTransferred i) ∧
      es.countP isSample = (if readsMiso i then bitsTransferred i else 0)

/-- R91: no bit or word command writes CS1 or CS2. -/
def Obligations.TransfersLeaveTheChipSelects : Prop :=
  ∀ (i : Instr) (s t : State), i.isTransfer = true → exec i s = .next t →
    ∃ es, t.trace = s.trace ++ es ∧ es.all (fun e => !isCsWrite e) = true ∧
      t.lines.cs1 = s.lines.cs1 ∧ t.lines.cs2 = s.lines.cs2

/-- R15: the chip-selects do not gate a bit or word command: with any other state of CS1 and CS2 it does the same. -/
def Obligations.TransfersDoNotDependOnTheChipSelects : Prop :=
  ∀ (i : Instr) (s : State) (c1 c2 : OutState), i.isTransfer = true →
    ∃ t, exec i s = .next t ∧
      exec i { s with lines := { s.lines with cs1 := c1, cs2 := c2 } } =
        .next { t with lines := { t.lines with cs1 := c1, cs2 := c2 } }

/-- R35, R117: MISO is looked at only when sampled: a command that does not read does the same whatever the environment
would answer. -/
def Obligations.OnlyReadsLookAtMiso : Prop :=
  ∀ (i : Instr) (s : State) (ms : List Level), readsMiso i = false →
    ∃ t, exec i s = .next t ∧ exec i { s with misoIn := ms } = .next { t with misoIn := ms }

/-- R16: WDATA, ACC, N and STEP hold nothing a later command can read: with any other contents a command does the same to
the rest of the state. -/
def Obligations.DataPathHoldsNothingACommandReads : Prop :=
  ∀ (i : Instr) (s : State) (d : DataPath),
    ∃ t u : State, exec i s = .next t ∧ exec i { s with dp := d } = .next u ∧ { u with dp := t.dp } = t

/-! ### Rules of the whole machine -/

/-- R121, R144: whatever the host and the environment do, every step comes to its end with a next state: no command
stops the engine. -/
def Obligations.EveryStepAnswersANextState : Prop := ∀ s : State, ∃ t, step s = .next t

/-- R17, R109: the flag `closed` is set by CLOSE alone and cleared by a reset alone. -/
def Obligations.ClosedIsSetByCloseAndClearedByReset : Prop :=
  ∀ s t : State, step s = .next t →
    (s.closed = false → t.closed = true → ∃ w, Takes s w ∧ decode w = .instr .close) ∧
    (s.closed = true → t.closed = false → ∃ p, ResetsWith s p)

/-- R46, R109: a closed engine appends no event and touches no line, until a reset. -/
def Obligations.NoEventAfterClose : Prop :=
  ∀ s t : State, step s = .next t → s.closed = true → s.initDone = true →
    (t.trace = s.trace ∧ t.lines = s.lines ∧ t.closed = true) ∨ ∃ p, ResetsWith s p

/-- R14: the phases change as the table says and in no other way. -/
def Obligations.PhaseChangesOnlyByTheNamedCommands : Prop :=
  ∀ s t : State, Inv s → step s = .next t →
    t.phase = s.phase ∨ t.aborting ≠ none ∨
    (∃ p, ResetsWith s p ∧ t.phase = .constructed) ∨
    (s.phase = .constructed ∧ t.phase = .idle) ∨
    (∃ (w : CmdWord) (i : Instr), Takes s w ∧ decode w = .instr i ∧
      ((s.phase = .idle ∧ t.phase = .selected ∧ (i = .sel1 ∨ i = .sel2)) ∨
       (s.phase = .selected ∧ t.phase = .idle ∧ (i = .rel1 ∨ i = .rel2)) ∨
       ((s.phase = .idle ∨ s.phase = .selected) ∧ t.phase = .closed ∧ i = .close)))

/-- The invariant holds at reset. -/
def Obligations.InvariantHoldsAtReset : Prop := Inv State.reset

/-- Every step keeps the invariant: the trace stays one the bus monitor allows (R31, R46, R75, R135, R136, R145), the lines
stay what the trace makes them (R11), SCLK stays driven low at command boundaries until CLOSE (R79), the open lines stay the
present ones until CLOSE (R105). No level of a disposed line is claimed (R106): it is a free value (log 13). -/
def Obligations.EveryStepKeepsTheInvariant : Prop :=
  ∀ s t : State, Inv s → step s = .next t → Inv t

/-- R22: an output enable is 0 until the first write to its line since reset, and 0 again after its dispose. -/
def Obligations.OutputEnableFollowsTheTrace : Prop :=
  ∀ (s : State) (l : OutLine), Inv s →
    (s.outEnable l = true ↔ (∃ v, Event.write l v ∈ s.trace) ∧ Event.dispose (toLine l) ∉ s.trace)

/-- R11: the level of an output line that is not disposed is the one last written to it. Of a disposed line nothing is
claimed (R106). -/
def Obligations.LevelIsTheLastOneWritten : Prop :=
  ∀ (s : State) (l : OutLine) (v : Level) (before after : List Event), Inv s →
    s.trace = before ++ [Event.write l v] ++ after → (∀ u, Event.write l u ∉ after) →
    Event.dispose (toLine l) ∉ after → (s.lines.out l).level = v

/-- R46: after a line is disposed no event touches it. -/
def Obligations.NoEventTouchesADisposedLine : Prop :=
  ∀ (s : State) (l : Line) (before after : List Event), Inv s →
    s.trace = before ++ [Event.dispose l] ++ after → ∀ e, e ∈ after → eventLine e ≠ some l

/-- R75, R77: at a command boundary as many holds have elapsed as SCLK has risen, each of length `T_HOLD`. -/
def Obligations.EveryRisingEdgeHasItsHold : Prop :=
  ∀ s : State, Inv s → s.aborting = none →
    holdCount s.trace = risingEdges s.trace ∧ ∀ t, Event.hold t ∈ s.trace → t = s.holdTicks

/-- R135, R136, R145: whenever MOSI, CS1 or CS2 is written or MISO is sampled, the last edge of SCLK was a falling one. -/
def Obligations.DataMovesOnlyWhileTheClockIsLow : Prop :=
  ∀ (s : State) (before between after : List Event) (v : Level) (e : Event), Inv s →
    s.trace = before ++ [Event.write .sclk v] ++ between ++ [e] ++ after →
    (∀ u, Event.write .sclk u ∉ between) →
    (isCsWrite e = true ∨ isSample e = true ∨ ∃ b, e = .write .mosi b) → v = false

/-! ### Rules of the host's scopes -/

/-- R61, R99: `WITHk body` with a body of transfers releases the line exactly once however the body ends: the select is its
first event, the release its last, and no event between them writes a chip-select. If the select fails, neither the
body nor the release is issued. -/
def Obligations.WithScopeReleasesExactlyOnce : Prop :=
  ∀ (s : State) (body : List Instr), s.closed = false → (∀ i, i ∈ body → i.isTransfer = true) →
    (∃ mid, (s.runWith .sel1 .rel1 body).trace = s.trace ++ [.write .cs1 false] ++ mid ++ [.write .cs1 true] ∧
      mid.all (fun e => !isCsWrite e) = true ∧ DrivenTo (s.runWith .sel1 .rel1 body) .cs1 true ∧
      (s.runWith .sel1 .rel1 body).rspStatus = .ok) ∧
    (s.cfg.hasCs2 = true →
      ∃ mid, (s.runWith .sel2 .rel2 body).trace = s.trace ++ [.write .cs2 false] ++ mid ++ [.write .cs2 true] ∧
        mid.all (fun e => !isCsWrite e) = true ∧ DrivenTo (s.runWith .sel2 .rel2 body) .cs2 true ∧
        (s.runWith .sel2 .rel2 body).rspStatus = .ok) ∧
    (s.cfg.hasCs2 = false → s.runWith .sel2 .rel2 body = Answered s .unsupported 2)

/-- R141: under a well-scoped sequence, from phase Idle, at no command boundary are both chip-selects low, and the phase
follows the chain: Idle with no scope outstanding, Selected inside a scope, Closed after CLOSE. No level of
a disposed line is claimed (R106). Well-scoped is read letter by letter (log 24). -/
def Obligations.WellScopedSequencesSelectOneSlaveAtATime : Prop :=
  ∀ (s : State) (first rest : List Instr), s.phase = .idle → wellScoped s.cfg.hasCs2 (first ++ rest) = true →
    bothSelected (s.issueAll first) = false ∧
    (s.issueAll first).phase =
      match ScopeState.run s.cfg.hasCs2 .free first with
      | .free => .idle
      | .held1 _ => .selected
      | .held2 _ => .selected
      | .done => .closed
      | .bad => .constructed
end

