-- ==== Sys2Proof/Laws/State.lean ====
section
/-! SUPPORT. One lemma per field of State for each shared update, true by definition, so that no proof unfolds one. -/

namespace Sys2Proof.Machine

variable (s : State)

/-! ### `emit` -/

@[simp] theorem State.emit_cfg (e : Event) : (s.emit e).cfg = s.cfg := rfl
@[simp] theorem State.emit_holdTicks (e : Event) : (s.emit e).holdTicks = s.holdTicks := rfl
@[simp] theorem State.emit_closed (e : Event) : (s.emit e).closed = s.closed := rfl
@[simp] theorem State.emit_initDone (e : Event) : (s.emit e).initDone = s.initDone := rfl
@[simp] theorem State.emit_lines (e : Event) : (s.emit e).lines = s.lines.apply e := rfl
@[simp] theorem State.emit_dp (e : Event) : (s.emit e).dp = s.dp := rfl
@[simp] theorem State.emit_rsp (e : Event) : (s.emit e).rsp = s.rsp := rfl
@[simp] theorem State.emit_trace (e : Event) : (s.emit e).trace = s.trace ++ [e] := rfl
@[simp] theorem State.emit_aborting (e : Event) : (s.emit e).aborting = s.aborting := rfl
@[simp] theorem State.emit_inputs (e : Event) : (s.emit e).inputs = s.inputs := rfl
@[simp] theorem State.emit_misoIn (e : Event) : (s.emit e).misoIn = s.misoIn := rfl
@[simp] theorem State.emit_delivered (e : Event) : (s.emit e).delivered = s.delivered := rfl
@[simp] theorem State.emit_fresh (e : Event) : (s.emit e).fresh = s.fresh := rfl

/-! ### `lineRead` -/

@[simp] theorem State.lineRead_cfg : (s.lineRead).cfg = s.cfg := rfl
@[simp] theorem State.lineRead_holdTicks : (s.lineRead).holdTicks = s.holdTicks := rfl
@[simp] theorem State.lineRead_closed : (s.lineRead).closed = s.closed := rfl
@[simp] theorem State.lineRead_initDone : (s.lineRead).initDone = s.initDone := rfl
@[simp] theorem State.lineRead_lines : (s.lineRead).lines = s.lines := rfl
@[simp] theorem State.lineRead_dp : (s.lineRead).dp = s.dp := rfl
@[simp] theorem State.lineRead_rsp : (s.lineRead).rsp = s.rsp := rfl
@[simp] theorem State.lineRead_trace : (s.lineRead).trace = s.trace ++ [.sample s.nextSample] := rfl
@[simp] theorem State.lineRead_aborting : (s.lineRead).aborting = s.aborting := rfl
@[simp] theorem State.lineRead_inputs : (s.lineRead).inputs = s.inputs := rfl
@[simp] theorem State.lineRead_misoIn : (s.lineRead).misoIn = s.misoIn.tail := rfl
@[simp] theorem State.lineRead_delivered : (s.lineRead).delivered = s.delivered := rfl
@[simp] theorem State.lineRead_fresh : (s.lineRead).fresh = s.fresh + 1 := rfl

/-! ### `respondOk` -/

@[simp] theorem State.respondOk_cfg (v : Word) : (s.respondOk v).cfg = s.cfg := rfl
@[simp] theorem State.respondOk_holdTicks (v : Word) : (s.respondOk v).holdTicks = s.holdTicks := rfl
@[simp] theorem State.respondOk_closed (v : Word) : (s.respondOk v).closed = s.closed := rfl
@[simp] theorem State.respondOk_initDone (v : Word) : (s.respondOk v).initDone = s.initDone := rfl
@[simp] theorem State.respondOk_lines (v : Word) : (s.respondOk v).lines = s.lines := rfl
@[simp] theorem State.respondOk_dp (v : Word) : (s.respondOk v).dp = staleDataPath s.fresh := rfl
@[simp] theorem State.respondOk_rsp (v : Word) : (s.respondOk v).rsp = some { status := .ok, value := v } := rfl
@[simp] theorem State.respondOk_trace (v : Word) : (s.respondOk v).trace = s.trace := rfl
@[simp] theorem State.respondOk_aborting (v : Word) : (s.respondOk v).aborting = s.aborting := rfl
@[simp] theorem State.respondOk_inputs (v : Word) : (s.respondOk v).inputs = s.inputs := rfl
@[simp] theorem State.respondOk_misoIn (v : Word) : (s.respondOk v).misoIn = s.misoIn := rfl
@[simp] theorem State.respondOk_delivered (v : Word) : (s.respondOk v).delivered = s.delivered := rfl
@[simp] theorem State.respondOk_fresh (v : Word) : (s.respondOk v).fresh = s.fresh + 1 := rfl

/-! ### `raise` -/

@[simp] theorem State.raise_cfg (e : Status) (v : Word) : (s.raise e v).cfg = s.cfg := rfl
@[simp] theorem State.raise_holdTicks (e : Status) (v : Word) : (s.raise e v).holdTicks = s.holdTicks := rfl
@[simp] theorem State.raise_closed (e : Status) (v : Word) : (s.raise e v).closed = s.closed := rfl
@[simp] theorem State.raise_initDone (e : Status) (v : Word) : (s.raise e v).initDone = s.initDone := rfl
@[simp] theorem State.raise_lines (e : Status) (v : Word) : (s.raise e v).lines = s.lines := rfl
@[simp] theorem State.raise_dp (e : Status) (v : Word) : (s.raise e v).dp = s.dp := rfl
@[simp] theorem State.raise_rsp (e : Status) (v : Word) : (s.raise e v).rsp = some { status := e, value := v } := rfl
@[simp] theorem State.raise_trace (e : Status) (v : Word) : (s.raise e v).trace = s.trace := rfl
@[simp] theorem State.raise_aborting (e : Status) (v : Word) : (s.raise e v).aborting = s.aborting := rfl
@[simp] theorem State.raise_inputs (e : Status) (v : Word) : (s.raise e v).inputs = s.inputs := rfl
@[simp] theorem State.raise_misoIn (e : Status) (v : Word) : (s.raise e v).misoIn = s.misoIn := rfl
@[simp] theorem State.raise_delivered (e : Status) (v : Word) : (s.raise e v).delivered = s.delivered := rfl
@[simp] theorem State.raise_fresh (e : Status) (v : Word) : (s.raise e v).fresh = s.fresh := rfl

/-! ### `loadWrite` -/

@[simp] theorem State.loadWrite_cfg (w : Word) (n : BitCount) : (s.loadWrite w n).cfg = s.cfg := rfl
@[simp] theorem State.loadWrite_holdTicks (w : Word) (n : BitCount) : (s.loadWrite w n).holdTicks = s.holdTicks := rfl
@[simp] theorem State.loadWrite_closed (w : Word) (n : BitCount) : (s.loadWrite w n).closed = s.closed := rfl
@[simp] theorem State.loadWrite_initDone (w : Word) (n : BitCount) : (s.loadWrite w n).initDone = s.initDone := rfl
@[simp] theorem State.loadWrite_lines (w : Word) (n : BitCount) : (s.loadWrite w n).lines = s.lines := rfl
@[simp] theorem State.loadWrite_dp (w : Word) (n : BitCount) : (s.loadWrite w n).dp = { s.dp with wdata := w, n := n, step := 0 } := rfl
@[simp] theorem State.loadWrite_rsp (w : Word) (n : BitCount) : (s.loadWrite w n).rsp = s.rsp := rfl
@[simp] theorem State.loadWrite_trace (w : Word) (n : BitCount) : (s.loadWrite w n).trace = s.trace := rfl
@[simp] theorem State.loadWrite_aborting (w : Word) (n : BitCount) : (s.loadWrite w n).aborting = s.aborting := rfl
@[simp] theorem State.loadWrite_inputs (w : Word) (n : BitCount) : (s.loadWrite w n).inputs = s.inputs := rfl
@[simp] theorem State.loadWrite_misoIn (w : Word) (n : BitCount) : (s.loadWrite w n).misoIn = s.misoIn := rfl
@[simp] theorem State.loadWrite_delivered (w : Word) (n : BitCount) : (s.loadWrite w n).delivered = s.delivered := rfl
@[simp] theorem State.loadWrite_fresh (w : Word) (n : BitCount) : (s.loadWrite w n).fresh = s.fresh := rfl

/-! ### `loadRead` -/

@[simp] theorem State.loadRead_cfg (n : BitCount) : (s.loadRead n).cfg = s.cfg := rfl
@[simp] theorem State.loadRead_holdTicks (n : BitCount) : (s.loadRead n).holdTicks = s.holdTicks := rfl
@[simp] theorem State.loadRead_closed (n : BitCount) : (s.loadRead n).closed = s.closed := rfl
@[simp] theorem State.loadRead_initDone (n : BitCount) : (s.loadRead n).initDone = s.initDone := rfl
@[simp] theorem State.loadRead_lines (n : BitCount) : (s.loadRead n).lines = s.lines := rfl
@[simp] theorem State.loadRead_dp (n : BitCount) : (s.loadRead n).dp = { s.dp with acc := 0, n := n, step := 0 } := rfl
@[simp] theorem State.loadRead_rsp (n : BitCount) : (s.loadRead n).rsp = s.rsp := rfl
@[simp] theorem State.loadRead_trace (n : BitCount) : (s.loadRead n).trace = s.trace := rfl
@[simp] theorem State.loadRead_aborting (n : BitCount) : (s.loadRead n).aborting = s.aborting := rfl
@[simp] theorem State.loadRead_inputs (n : BitCount) : (s.loadRead n).inputs = s.inputs := rfl
@[simp] theorem State.loadRead_misoIn (n : BitCount) : (s.loadRead n).misoIn = s.misoIn := rfl
@[simp] theorem State.loadRead_delivered (n : BitCount) : (s.loadRead n).delivered = s.delivered := rfl
@[simp] theorem State.loadRead_fresh (n : BitCount) : (s.loadRead n).fresh = s.fresh := rfl

/-! ### `countBit` -/

@[simp] theorem State.countBit_cfg : (s.countBit).cfg = s.cfg := rfl
@[simp] theorem State.countBit_holdTicks : (s.countBit).holdTicks = s.holdTicks := rfl
@[simp] theorem State.countBit_closed : (s.countBit).closed = s.closed := rfl
@[simp] theorem State.countBit_initDone : (s.countBit).initDone = s.initDone := rfl
@[simp] theorem State.countBit_lines : (s.countBit).lines = s.lines := rfl
@[simp] theorem State.countBit_dp : (s.countBit).dp = { s.dp with step := s.dp.step + 1 } := rfl
@[simp] theorem State.countBit_rsp : (s.countBit).rsp = s.rsp := rfl
@[simp] theorem State.countBit_trace : (s.countBit).trace = s.trace := rfl
@[simp] theorem State.countBit_aborting : (s.countBit).aborting = s.aborting := rfl
@[simp] theorem State.countBit_inputs : (s.countBit).inputs = s.inputs := rfl
@[simp] theorem State.countBit_misoIn : (s.countBit).misoIn = s.misoIn := rfl
@[simp] theorem State.countBit_delivered : (s.countBit).delivered = s.delivered := rfl
@[simp] theorem State.countBit_fresh : (s.countBit).fresh = s.fresh := rfl

/-! ### `construct` -/

@[simp] theorem State.construct_cfg (p : Straps) : (s.construct p).cfg = cfgOf p := rfl
@[simp] theorem State.construct_holdTicks (p : Straps) : (s.construct p).holdTicks = p.holdTicks := rfl
@[simp] theorem State.construct_closed (p : Straps) : (s.construct p).closed = false := rfl
@[simp] theorem State.construct_initDone (p : Straps) : (s.construct p).initDone = false := rfl
@[simp] theorem State.construct_lines (p : Straps) : (s.construct p).lines = Lines.atReset (cfgOf p) (s.fresh + 1) := rfl
@[simp] theorem State.construct_dp (p : Straps) : (s.construct p).dp = { wdata := 0, acc := 0, n := 0, step := 0 } := rfl
@[simp] theorem State.construct_rsp (p : Straps) : (s.construct p).rsp = none := rfl
@[simp] theorem State.construct_trace (p : Straps) : (s.construct p).trace = [] := rfl
@[simp] theorem State.construct_aborting (p : Straps) : (s.construct p).aborting = none := rfl
@[simp] theorem State.construct_inputs (p : Straps) : (s.construct p).inputs = s.inputs := rfl
@[simp] theorem State.construct_misoIn (p : Straps) : (s.construct p).misoIn = s.misoIn := rfl
@[simp] theorem State.construct_delivered (p : Straps) : (s.construct p).delivered = s.delivered := rfl
@[simp] theorem State.construct_fresh (p : Straps) : (s.construct p).fresh = s.fresh + 1 := rfl

/-! ### `popInput` -/

@[simp] theorem State.popInput_cfg : (s.popInput).cfg = s.cfg := rfl
@[simp] theorem State.popInput_holdTicks : (s.popInput).holdTicks = s.holdTicks := rfl
@[simp] theorem State.popInput_closed : (s.popInput).closed = s.closed := rfl
@[simp] theorem State.popInput_initDone : (s.popInput).initDone = s.initDone := rfl
@[simp] theorem State.popInput_lines : (s.popInput).lines = s.lines := rfl
@[simp] theorem State.popInput_dp : (s.popInput).dp = s.dp := rfl
@[simp] theorem State.popInput_rsp : (s.popInput).rsp = s.rsp := rfl
@[simp] theorem State.popInput_trace : (s.popInput).trace = s.trace := rfl
@[simp] theorem State.popInput_aborting : (s.popInput).aborting = s.aborting := rfl
@[simp] theorem State.popInput_inputs : (s.popInput).inputs = s.inputs.tail := rfl
@[simp] theorem State.popInput_misoIn : (s.popInput).misoIn = s.misoIn := rfl
@[simp] theorem State.popInput_delivered : (s.popInput).delivered = s.delivered := rfl
@[simp] theorem State.popInput_fresh : (s.popInput).fresh = s.fresh := rfl

/-! ### `present` -/

@[simp] theorem State.present_cfg (w : CmdWord) : (s.present w).cfg = s.cfg := rfl
@[simp] theorem State.present_holdTicks (w : CmdWord) : (s.present w).holdTicks = s.holdTicks := rfl
@[simp] theorem State.present_closed (w : CmdWord) : (s.present w).closed = s.closed := rfl
@[simp] theorem State.present_initDone (w : CmdWord) : (s.present w).initDone = s.initDone := rfl
@[simp] theorem State.present_lines (w : CmdWord) : (s.present w).lines = s.lines := rfl
@[simp] theorem State.present_dp (w : CmdWord) : (s.present w).dp = s.dp := rfl
@[simp] theorem State.present_rsp (w : CmdWord) : (s.present w).rsp = s.rsp := rfl
@[simp] theorem State.present_trace (w : CmdWord) : (s.present w).trace = s.trace := rfl
@[simp] theorem State.present_aborting (w : CmdWord) : (s.present w).aborting = s.aborting := rfl
@[simp] theorem State.present_inputs (w : CmdWord) : (s.present w).inputs = { rst := .low, cmd := some w, rspReady := false } :: s.inputs := rfl
@[simp] theorem State.present_misoIn (w : CmdWord) : (s.present w).misoIn = s.misoIn := rfl
@[simp] theorem State.present_delivered (w : CmdWord) : (s.present w).delivered = s.delivered := rfl
@[simp] theorem State.present_fresh (w : CmdWord) : (s.present w).fresh = s.fresh := rfl

/-! ### `port` -/

@[simp] theorem State.present_port (w : CmdWord) :
    (s.present w).port = { rst := .low, cmd := some w, rspReady := false } := rfl

/-! ### Lines -/

@[simp] theorem Lines.setOut_out_self (ln : Lines) (l : OutLine) (o : OutState) : (ln.setOut l o).out l = o := by
  cases l <;> rfl

theorem Lines.setOut_out_ne (ln : Lines) {l m : OutLine} (o : OutState) (h : m ≠ l) :
    (ln.setOut l o).out m = ln.out m := by
  cases l <;> cases m <;> first | rfl | exact absurd rfl h

@[simp] theorem Lines.setOut_misoOpen (ln : Lines) (l : OutLine) (o : OutState) :
    (ln.setOut l o).misoOpen = ln.misoOpen := by cases l <;> rfl

theorem Lines.isOpen_toLine (ln : Lines) (l : OutLine) : ln.isOpen (toLine l) = (ln.out l).isOpen := by
  cases l <;> rfl

/-- A line write leaves every open bit as it is. -/
@[simp] theorem Lines.apply_write_isOpen (ln : Lines) (l : OutLine) (v : Level) (m : Line) :
    (ln.apply (.write l v)).isOpen m = ln.isOpen m := by
  cases l <;> cases m <;> rfl

@[simp] theorem Lines.apply_write_out_self (ln : Lines) (l : OutLine) (v : Level) :
    (ln.apply (.write l v)).out l = { ln.out l with level := v, driven := true } := by
  cases l <;> rfl

theorem Lines.apply_write_out_ne (ln : Lines) {l m : OutLine} (v : Level) (h : m ≠ l) :
    (ln.apply (.write l v)).out m = ln.out m := by
  cases l <;> cases m <;> first | rfl | exact absurd rfl h

@[simp] theorem Lines.apply_sample (ln : Lines) (b : Level) : ln.apply (.sample b) = ln := rfl
@[simp] theorem Lines.apply_hold (ln : Lines) (t : Ticks) : ln.apply (.hold t) = ln := rfl

@[simp] theorem OutState.shut_level (o : OutState) (k : Nat) (l : OutLine) :
    (o.shut k l).level = Config.disposedLevel k l := rfl
@[simp] theorem OutState.shut_driven (o : OutState) (k : Nat) (l : OutLine) : (o.shut k l).driven = o.driven := rfl
@[simp] theorem OutState.shut_isOpen (o : OutState) (k : Nat) (l : OutLine) : (o.shut k l).isOpen = false := rfl

/-- No event changes which life of the engine it is. -/
@[simp] theorem Lines.apply_epoch (ln : Lines) (e : Event) : (ln.apply e).epoch = ln.epoch := by
  cases e with
  | write l v => cases l <;> rfl
  | dispose l => cases l <;> rfl
  | sample b => rfl
  | hold t => rfl

/-- Disposing another line leaves an output line as it is. -/
theorem Lines.apply_dispose_out_ne (ln : Lines) {l : OutLine} {m : Line} (h : m ≠ toLine l) :
    (ln.apply (.dispose m)).out l = ln.out l := by
  cases m <;> cases l <;> first | rfl | exact absurd rfl h

@[simp] theorem Lines.replay_nil (ln : Lines) : ln.replay [] = ln := rfl
@[simp] theorem Lines.replay_cons (ln : Lines) (e : Event) (es : List Event) :
    ln.replay (e :: es) = (ln.apply e).replay es := rfl
theorem Lines.replay_append (ln : Lines) (es fs : List Event) :
    ln.replay (es ++ fs) = (ln.replay es).replay fs := by simp [Lines.replay]

@[simp] theorem Lines.replay_epoch (ln : Lines) (es : List Event) : (ln.replay es).epoch = ln.epoch := by
  induction es generalizing ln with
  | nil => rfl
  | cons e es ih => rw [Lines.replay_cons, ih, Lines.apply_epoch]

end Sys2Proof.Machine
end

