-- ==== Sys2Proof/Laws/Ops.lean ====
section
/-! SUPPORT. For each shared operation, once, everything it does. The provers cite these and unfold nothing. -/

namespace Sys2Proof.Machine

/-! ### Events -/

@[simp] theorem State.emitAll_nil (s : State) : s.emitAll [] = s := rfl

theorem State.emitAll_cons (s : State) (e : Event) (es : List Event) :
    s.emitAll (e :: es) = (s.emit e).emitAll es := rfl

theorem State.emitAll_append (s : State) (es fs : List Event) :
    s.emitAll (es ++ fs) = (s.emitAll es).emitAll fs := by simp [State.emitAll]

/-- Emitting a list of events appends it to the trace, replays it on the lines, and changes nothing else. -/
theorem State.emitAll_eq (s : State) (es : List Event) :
    s.emitAll es = { s with lines := s.lines.replay es, trace := s.trace ++ es } := by
  induction es generalizing s with
  | nil => simp
  | cons e es ih => rw [State.emitAll_cons, ih]; simp [State.emit]

/-- `pulse()` is its three events (R75). -/
theorem State.pulse_eq (s : State) : s.pulse = s.emitAll (pulseEvents s.holdTicks) := rfl

/-- Writing one bit is its four events (R80). -/
theorem State.writeBit_eq (s : State) (b : Level) : s.writeBit b = s.emitAll (writeBitEvents s.holdTicks b) := rfl

/-- Reading one bit (R82): four events, one sample used up. -/
theorem State.readBit_eq (s : State) :
    s.readBit = { s.emitAll (readBitEvents s.holdTicks s.pulse.nextSample) with
      misoIn := s.misoIn.tail, fresh := s.fresh + 1 } := by
  simp [State.readBit, State.lineRead, State.pulse_eq, readBitEvents, State.emitAll_eq, State.emit,
    Lines.replay_append]

/-- The bit a read gets is the first listed answer of the environment, when there is one (R35). -/
theorem State.nextSample_of_cons {s : State} {b : Level} {bs : List Level} (h : s.misoIn = b :: bs) :
    s.nextSample = b := by simp [State.nextSample, h]

/-! ### What an event list does to single lines -/

/-- A pulse leaves SCLK driven low. -/
theorem Lines.replay_pulse_sclk (ln : Lines) (h : Ticks) :
    (ln.replay (pulseEvents h)).sclk = { ln.sclk with level := false, driven := true } := rfl

/-- A pulse touches SCLK only (R78). -/
theorem Lines.replay_pulse_out (ln : Lines) (h : Ticks) {l : OutLine} (hl : l ≠ .sclk) :
    (ln.replay (pulseEvents h)).out l = ln.out l := by
  cases l <;> first | rfl | exact absurd rfl hl

/-- A pulse leaves every open bit as it is. -/
@[simp] theorem Lines.replay_pulse_isOpen (ln : Lines) (h : Ticks) (l : Line) :
    (ln.replay (pulseEvents h)).isOpen l = ln.isOpen l := by cases l <;> rfl

/-- Bit writes leave every open bit as it is. -/
theorem Lines.replay_bits_isOpen (ln : Lines) (h : Ticks) (bs : List Level) (l : Line) :
    (ln.replay (bs.flatMap (writeBitEvents h))).isOpen l = ln.isOpen l := by
  induction bs generalizing ln with
  | nil => rfl
  | cons b bs ih =>
    rw [List.flatMap_cons, Lines.replay_append, ih]
    simp [writeBitEvents]

/-- Bit writes leave the chip-selects as they are (R91). -/
theorem Lines.replay_bits_out (ln : Lines) (h : Ticks) (bs : List Level) {l : OutLine} (h1 : l ≠ .sclk) (h2 : l ≠ .mosi) :
    (ln.replay (bs.flatMap (writeBitEvents h))).out l = ln.out l := by
  induction bs generalizing ln with
  | nil => rfl
  | cons b bs ih =>
    rw [List.flatMap_cons, Lines.replay_append, ih]
    cases l <;> first | rfl | exact absurd rfl h1 | exact absurd rfl h2

/-- After bit writes SCLK is low and MOSI stands at the last bit. -/
theorem Lines.replay_bits_last (ln : Lines) (h : Ticks) (bs : List Level) (b : Level) :
    ((ln.replay ((bs ++ [b]).flatMap (writeBitEvents h))).out .sclk).level = false ∧
    ((ln.replay ((bs ++ [b]).flatMap (writeBitEvents h))).out .sclk).driven = true ∧
    ((ln.replay ((bs ++ [b]).flatMap (writeBitEvents h))).out .mosi).level = b ∧
    ((ln.replay ((bs ++ [b]).flatMap (writeBitEvents h))).out .mosi).driven = true := by
  rw [List.flatMap_append, Lines.replay_append]
  exact ⟨rfl, rfl, rfl, rfl⟩

/-- Bit reads touch SCLK only (R78, R82). -/
theorem Lines.replay_reads_out (ln : Lines) (h : Ticks) (bs : List Level) {l : OutLine} (hl : l ≠ .sclk) :
    (ln.replay (readWordEvents h bs)).out l = ln.out l := by
  induction bs generalizing ln with
  | nil => rfl
  | cons b bs ih =>
    rw [readWordEvents, List.flatMap_cons, Lines.replay_append]
    rw [readWordEvents] at ih
    rw [ih]
    cases l <;> first | rfl | exact absurd rfl hl

/-- Bit reads leave every open bit as it is. -/
theorem Lines.replay_reads_isOpen (ln : Lines) (h : Ticks) (bs : List Level) (l : Line) :
    (ln.replay (readWordEvents h bs)).isOpen l = ln.isOpen l := by
  induction bs generalizing ln with
  | nil => rfl
  | cons b bs ih =>
    rw [readWordEvents, List.flatMap_cons, Lines.replay_append]
    rw [readWordEvents] at ih
    rw [ih]
    cases l <;> rfl

/-- After at least one bit read SCLK is driven low. -/
theorem Lines.replay_reads_sclk (ln : Lines) (h : Ticks) {bs : List Level} (hb : bs ≠ []) :
    ((ln.replay (readWordEvents h bs)).out .sclk).level = false ∧
    ((ln.replay (readWordEvents h bs)).out .sclk).driven = true := by
  obtain ⟨as, b, rfl⟩ := List.eq_nil_or_concat bs |>.resolve_left hb
  rw [readWordEvents, List.concat_eq_append, List.flatMap_append, Lines.replay_append]
  exact ⟨rfl, rfl⟩

/-! ### The checks -/

/-- A command either takes the error its checks find, or runs its body. -/
theorem State.command_cases {s t : State} {c : Option (BitCount × Nat)} {l : Option Line} {f : State → State}
    (h : s.command c l f = .next t) :
    (∃ r, s.firstError c l = some r ∧ t = s.raise r.status r.value) ∨ (s.firstError c l = none ∧ t = f s) := by
  unfold State.command at h
  split at h
  · rename_i r hr; exact .inl ⟨r, hr, by injection h with h; exact h.symm⟩
  · rename_i hr; exact .inr ⟨hr, by injection h with h; exact h.symm⟩

/-- A command whose checks pass runs its body. -/
theorem State.command_ok {s : State} {c : Option (BitCount × Nat)} {l : Option Line} {f : State → State}
    (h : s.firstError c l = none) : s.command c l f = .next (f s) := by simp [State.command, h]

/-- A command whose checks fail takes the error. -/
theorem State.command_error {s : State} {c : Option (BitCount × Nat)} {l : Option Line} {f : State → State}
    {r : Response} (h : s.firstError c l = some r) : s.command c l f = .next (s.raise r.status r.value) := by
  simp [State.command, h]

/-- Check 2 of R115 comes first. -/
theorem State.firstError_closed {s : State} (h : s.closed = true) (c : Option (BitCount × Nat)) (l : Option Line) :
    s.firstError c l = some { status := .closed, value := 0 } := by simp [State.firstError, h]

/-- An error of the checks is never OK. -/
theorem State.firstError_status {s : State} {c : Option (BitCount × Nat)} {l : Option Line} {r : Response}
    (h : s.firstError c l = some r) : r.status ≠ .ok := by
  unfold State.firstError State.operandError State.missingLine at h
  repeat' split at h
  all_goals first | (injection h with h; subst h; simp) | cases h

/-- The checks of an open engine for a word command. -/
theorem State.firstError_count {s : State} (h : s.closed = false) (n : BitCount) (width : Nat) (l : Line) :
    s.firstError (some (n, width)) (lineIfAny n l) =
      if width < n.toNat then some { status := .outOfRange, value := rangeInfo n width }
      else if n ≠ 0 ∧ s.cfg.present l = false then some { status := .unsupported, value := lineInfo l } else none := by
  by_cases hn : n = 0#8 <;> cases hp : s.cfg.present l <;>
    simp [State.firstError, State.operandError, State.missingLine, lineIfAny, h, hn, hp]

/-- The checks of an open engine for a command that uses one line. -/
theorem State.firstError_line {s : State} (h : s.closed = false) (l : Line) :
    s.firstError none (some l) =
      if s.cfg.present l then none else some { status := .unsupported, value := lineInfo l } := by
  simp [State.firstError, State.operandError, State.missingLine, h]

/-! ### The loops of the word commands -/

/-- One step of a word write. -/
theorem State.writeStep_eq (s : State) :
    s.writeStep = { s.emitAll (writeBitEvents s.holdTicks (bitOut s.dp.wdata (s.dp.index s.cfg.endian))) with
      dp := { s.dp with step := s.dp.step + 1 } } := by
  simp [State.writeStep, State.writeBit_eq, State.countBit, State.emitAll_eq]

theorem stepCount_succ (i : Nat) : BitVec.ofNat 7 i + 1#7 = BitVec.ofNat 7 (i + 1) := by
  apply BitVec.eq_of_toNat_eq
  simp [BitVec.toNat_add]

/-- `k` steps of a word write from step `i`: the bits from step `i` on, each with its pulse, and STEP moved on. -/
theorem State.writeLoop_eq (k i : Nat) (s : State) (hs : s.dp.step = BitVec.ofNat 7 i) (hk : i + k ≤ 64) :
    State.writeLoop k s =
      { s.emitAll (((List.range' i k).map (fun j => bitOut s.dp.wdata (idx s.cfg.endian s.dp.n.toNat j))).flatMap
          (writeBitEvents s.holdTicks)) with
        dp := { s.dp with step := BitVec.ofNat 7 (i + k) } } := by
  induction k generalizing i s with
  | zero => simp [State.writeLoop, ← hs]
  | succ k ih =>
    have hi : i % 128 = i := Nat.mod_eq_of_lt (by omega)
    rw [State.writeLoop, ih (i + 1) s.writeStep (by simp [State.writeStep_eq, hs, stepCount_succ]) (by omega)]
    simp only [State.writeStep_eq, State.emitAll_eq, List.range'_succ, List.map_cons, List.flatMap_cons,
      Lines.replay_append, DataPath.index, hs, BitVec.toNat_ofNat, Nat.reducePow, hi, List.append_assoc]
    congr 3
    omega

/-- The whole of a word write's loop from its load: all the events of R84. -/
theorem State.writeLoop_load (s : State) (w : Word) (n : BitCount) (hn : n.toNat ≤ 64) :
    State.writeLoop n.toNat (s.loadWrite w n) =
      { s.emitAll (writeWordEvents s.holdTicks s.cfg.endian w n.toNat) with
        dp := { s.dp with wdata := w, n := n, step := BitVec.ofNat 7 n.toNat } } := by
  rw [State.writeLoop_eq n.toNat 0 (s.loadWrite w n) rfl (by omega)]
  simp [State.emitAll_eq, writeWordEvents, sentBits, bitOut, List.range_eq_range', State.loadWrite]

/-- Merging the samples `bs`, the first at step `i`, into an accumulator (R73). -/
def gather (e : Endian) (n i : Nat) (acc : Word) : List Level → Word
  | [] => acc
  | b :: bs => gather e n (i + 1) (mergeBit acc (idx e n i) b) bs

/-- `k` steps of a word read from step `i`: `k` samples, the listed answers first; their pulses and samples; ACC has
them merged. -/
theorem State.readLoop_eq (k i : Nat) (s : State) (hs : s.dp.step = BitVec.ofNat 7 i) (hk : i + k ≤ 64) :
    ∃ bs : List Level, bs.length = k ∧ s.misoIn.take k <+: bs ∧
      State.readLoop k s =
        { s.emitAll (readWordEvents s.holdTicks bs) with
          misoIn := s.misoIn.drop k, fresh := s.fresh + k,
          dp := { s.dp with acc := gather s.cfg.endian s.dp.n.toNat i s.dp.acc bs, step := BitVec.ofNat 7 (i + k) } } := by
  induction k generalizing i s with
  | zero => exact ⟨[], rfl, by simp, by simp [State.readLoop, gather, readWordEvents, ← hs]⟩
  | succ k ih =>
    have hi : i % 128 = i := Nat.mod_eq_of_lt (by omega)
    have hstep : s.readStep = { s.emitAll (readBitEvents s.holdTicks s.pulse.nextSample) with
        misoIn := s.misoIn.tail, fresh := s.fresh + 1,
        dp := { s.dp with acc := mergeBit s.dp.acc (idx s.cfg.endian s.dp.n.toNat i) s.pulse.nextSample,
                          step := BitVec.ofNat 7 (i + 1) } } := by
      simp [State.readStep, State.readBit_eq, State.emitAll_eq, State.countBit, DataPath.index, hs, hi,
        stepCount_succ]
    obtain ⟨bs, hlen, hpre, heq⟩ := ih (i + 1) s.readStep (by simp [hstep]) (by omega)
    refine ⟨s.pulse.nextSample :: bs, by simp [hlen], ?_, ?_⟩
    · cases hm : s.misoIn with
      | nil => simp
      | cons b rest =>
        have hb : s.pulse.nextSample = b := State.nextSample_of_cons (bs := rest) (by simp [State.pulse_eq, State.emitAll_eq, hm])
        have : s.readStep.misoIn = rest := by simp [hstep, hm]
        rw [this] at hpre
        simpa [hb] using hpre
    · rw [State.readLoop, heq]
      simp only [hstep, State.emitAll_eq, readWordEvents, List.flatMap_cons, Lines.replay_append, gather,
        List.append_assoc, List.drop_tail, Nat.add_assoc, Nat.add_comm 1 k]

/-- Bits of a gathered word: nothing above the bits merged is touched. -/
theorem gather_high (e : Endian) (n i : Nat) (acc : Word) (bs : List Level) (j : Nat) (hj : n ≤ j) (hi : i + bs.length ≤ n) :
    (gather e n i acc bs).getLsbD j = acc.getLsbD j := by
  induction bs generalizing i acc with
  | nil => rfl
  | cons b bs ih =>
    simp only [List.length_cons] at hi
    rw [gather, ih (i + 1) _ (by omega)]
    have hne : idx e n i ≠ j := by cases e <;> simp only [idx] <;> omega
    cases b
    · simp [mergeBit]
    · simp only [mergeBit, ↓reduceIte, BitVec.getLsbD_or, BitVec.getLsbD_shiftLeft, BitVec.getLsbD_one]
      have : ¬ (j - idx e n i = 0 ∧ ¬ j < idx e n i) := by omega
      by_cases h1 : j < idx e n i <;> by_cases h2 : j - idx e n i = 0 <;> simp_all

/-- Bits of a gathered word: sample `k` stands where `idx` says, over what the accumulator held (R73). -/
theorem gather_bit (e : Endian) (n i : Nat) (acc : Word) (bs : List Level) (hn : n ≤ 64) (hi : i + bs.length ≤ n)
    (k : Nat) (hk : k < n) :
    (gather e n i acc bs).getLsbD (idx e n k) = (acc.getLsbD (idx e n k) || (decide (i ≤ k) && bs.getD (k - i) false)) := by
  induction bs generalizing i acc with
  | nil => simp [gather]
  | cons b bs ih =>
    simp only [List.length_cons] at hi
    rw [gather, ih (i + 1) _ (by omega)]
    have hlt : idx e n k < 64 := by cases e <;> simp only [idx] <;> omega
    have hbit : (mergeBit acc (idx e n i) b).getLsbD (idx e n k) =
        (acc.getLsbD (idx e n k) || (decide (i = k) && b)) := by
      have hik : i = k ↔ idx e n i = idx e n k := by
        cases e with
        | little => simp only [idx]; omega
        | big => rfl
      cases b
      · simp [mergeBit]
      · simp only [mergeBit, ↓reduceIte, BitVec.getLsbD_or, BitVec.getLsbD_shiftLeft, BitVec.getLsbD_one, hlt,
          decide_true, Bool.true_and, Bool.and_true, hik]
        by_cases h1 : idx e n k < idx e n i <;> by_cases h2 : idx e n i = idx e n k <;> simp_all
        all_goals omega
    rw [hbit]
    rcases Nat.lt_trichotomy i k with h | h | h
    · have h3 : k - i = (k - (i + 1)) + 1 := by omega
      simp [h3, Nat.ne_of_lt h, Nat.succ_le_of_lt h, Nat.le_of_lt h]
    · subst h; simp
    · simp [Nat.not_le.mpr h, Nat.ne_of_gt h, show ¬ i + 1 ≤ k by omega]

end Sys2Proof.Machine
end

