-- ==== Sys2Proof/Laws/Exec.lean ====
section
/-! SUPPORT. Once, everything `exec` can do: an error that changes the response only, or the whole command. The provers cite
`exec_ok`, `exec_error` and `exec_cases` and unfold no meaning. -/

namespace Sys2Proof.Machine

/-- The events of a command that succeeds, `bs` being the samples it gets (R40). -/
def commandEvents (c : Cfg) (h : Ticks) (bs : List Level) : Instr → List Event
  | .sel1 => [.write .cs1 false]
  | .sel2 => [.write .cs2 false]
  | .rel1 => [.write .cs1 true]
  | .rel2 => [.write .cs2 true]
  | .wbit b => writeBitEvents h b
  | .rbit => readWordEvents h bs
  | .ww8 w n => writeWordEvents h c.endian (w.setWidth 64) n.toNat
  | .ww16 w n => writeWordEvents h c.endian (w.setWidth 64) n.toNat
  | .ww32 w n => writeWordEvents h c.endian (w.setWidth 64) n.toNat
  | .ww64 w n => writeWordEvents h c.endian w n.toNat
  | .rw _ => readWordEvents h bs
  | .close => closeEvents c

/-- The value a command that succeeds returns (R59). -/
def commandValue (c : Cfg) (bs : List Level) : Instr → Word
  | .sel1 => 1
  | .sel2 => 2
  | .rbit => bitWord (bs.headD false)
  | .rw n => gather c.endian n.toNat 0 0 bs
  | .rel1 | .rel2 | .wbit _ | .ww8 _ _ | .ww16 _ _ | .ww32 _ _ | .ww64 _ _ | .close => 0

/-- How many samples a command that succeeds takes. -/
def samplesTaken (i : Instr) : Nat := if readsMiso i then bitsTransferred i else 0

/-- The state after a command that succeeds with samples `bs`; the data path holds the free values numbered `k`. -/
def State.afterCommand (s : State) (i : Instr) (bs : List Level) (k : Nat) : State :=
  { s with
    lines := s.lines.replay (commandEvents s.cfg s.holdTicks bs i)
    trace := s.trace ++ commandEvents s.cfg s.holdTicks bs i
    closed := s.closed || decide (i = .close)
    misoIn := s.misoIn.drop bs.length
    rsp := some { status := .ok, value := commandValue s.cfg bs i }
    dp := staleDataPath k
    fresh := k + 1 }

theorem present_cs1 (c : Cfg) : c.present .cs1 = true := rfl

/-- A word write that passes its checks. -/
theorem State.writeWord_ok {s : State} {width : Nat} {w : Word} {n : BitCount} (h0 : s.closed = false)
    (h1 : n.toNat ≤ width) (h64 : width ≤ 64) (h2 : n = 0 ∨ s.cfg.hasMosi = true) :
    s.writeWord width w n = .next
      { s with
        lines := s.lines.replay (writeWordEvents s.holdTicks s.cfg.endian w n.toNat)
        trace := s.trace ++ writeWordEvents s.holdTicks s.cfg.endian w n.toNat
        rsp := some { status := .ok, value := 0 }
        dp := staleDataPath s.fresh
        fresh := s.fresh + 1 } := by
  have hc : s.firstError (some (n, width)) (lineIfAny n .mosi) = none := by
    rw [State.firstError_count h0, if_neg (by omega), if_neg]
    rintro ⟨hn, hp⟩
    rcases h2 with h2 | h2
    · exact hn h2
    · simp [Cfg.present, h2] at hp
  rw [State.writeWord, State.command_ok hc, State.writeLoop_load s w n (by omega)]
  simp [State.emitAll_eq, State.respondOk]

/-- CLOSE's disposals are the events of R105. -/
theorem State.disposeAll_eq (s : State) : s.disposeAll = s.emitAll (closeEvents s.cfg) := by
  obtain ⟨⟨_, c2, mo, mi⟩⟩ := s
  cases c2 <;> cases mo <;> cases mi <;> rfl

/-- INIT is its events (R131). -/
theorem State.runInit_eq (s : State) : s.runInit = { s.emitAll (initEvents s.cfg) with initDone := true } := by
  simp only [State.runInit, initWrites, initEvents]
  cases s.cfg.hasCs2 <;> cases s.cfg.hasMosi <;> rfl

/-- A COMMAND THAT PASSES ITS CHECKS completes: all its events, its value, its samples, and nothing else. -/
theorem exec_ok {i : Instr} {s : State} (h0 : s.closed = false) (h1 : overRange i = false)
    (h2 : lacksLine s.cfg i = false) :
    ∃ (bs : List Level) (k : Nat), bs.length = samplesTaken i ∧ s.misoIn.take bs.length <+: bs ∧
      exec i s = .next (s.afterCommand i bs k) := by
  cases i with
  | sel1 => exact ⟨[], s.fresh, rfl, by simp, by
      simp [exec, execSel1, State.command_ok, State.firstError_line h0, Cfg.present, State.afterCommand, commandEvents,
        commandValue, State.lineWrite, State.emit, State.respondOk]⟩
  | sel2 =>
    have hp : s.cfg.present .cs2 = true := by simpa [lacksLine, Cfg.present] using h2
    exact ⟨[], s.fresh, rfl, by simp, by
      simp [exec, execSel2, State.command_ok, State.firstError_line h0, hp, State.afterCommand, commandEvents,
        commandValue, State.lineWrite, State.emit, State.respondOk]⟩
  | rel1 => exact ⟨[], s.fresh, rfl, by simp, by
      simp [exec, execRel1, State.command_ok, State.firstError_line h0, Cfg.present, State.afterCommand, commandEvents,
        commandValue, State.lineWrite, State.emit, State.respondOk]⟩
  | rel2 =>
    have hp : s.cfg.present .cs2 = true := by simpa [lacksLine, Cfg.present] using h2
    exact ⟨[], s.fresh, rfl, by simp, by
      simp [exec, execRel2, State.command_ok, State.firstError_line h0, hp, State.afterCommand, commandEvents,
        commandValue, State.lineWrite, State.emit, State.respondOk]⟩
  | wbit b =>
    have hp : s.cfg.present .mosi = true := by simpa [lacksLine, Cfg.present] using h2
    have hb : bitOut (bitWord b) 0 = b := by cases b <;> rfl
    exact ⟨[], s.fresh, rfl, by simp, by
      simp [exec, execWbit, State.command_ok, State.firstError_line h0, hp, State.afterCommand, commandEvents,
        commandValue, State.writeBit_eq, State.emitAll_eq, State.respondOk, hb]⟩
  | rbit =>
    have hp : s.cfg.present .miso = true := by simpa [lacksLine, Cfg.present] using h2
    refine ⟨[s.pulse.nextSample], s.fresh + 1, rfl, ?_, ?_⟩
    · cases hm : s.misoIn with
      | nil => simp
      | cons b rest =>
        have : s.pulse.nextSample = b :=
          State.nextSample_of_cons (bs := rest) (by simp [State.pulse_eq, State.emitAll_eq, hm])
        simp [this]
    · simp [exec, execRbit, State.command_ok, State.firstError_line h0, hp, State.afterCommand, commandEvents,
        commandValue, State.readBit_eq, State.emitAll_eq, State.respondOk, readWordEvents]
  | ww8 w n =>
    refine ⟨[], s.fresh, rfl, by simp, ?_⟩
    rw [exec, execWw8, State.writeWord_ok h0 (by simpa [overRange] using h1) (by omega) (by
      simp only [lacksLine] at h2; by_cases hn : n = 0 <;> simp_all)]
    simp [State.afterCommand, commandEvents, commandValue]
  | ww16 w n =>
    refine ⟨[], s.fresh, rfl, by simp, ?_⟩
    rw [exec, execWw16, State.writeWord_ok h0 (by simpa [overRange] using h1) (by omega) (by
      simp only [lacksLine] at h2; by_cases hn : n = 0 <;> simp_all)]
    simp [State.afterCommand, commandEvents, commandValue]
  | ww32 w n =>
    refine ⟨[], s.fresh, rfl, by simp, ?_⟩
    rw [exec, execWw32, State.writeWord_ok h0 (by simpa [overRange] using h1) (by omega) (by
      simp only [lacksLine] at h2; by_cases hn : n = 0 <;> simp_all)]
    simp [State.afterCommand, commandEvents, commandValue]
  | ww64 w n =>
    refine ⟨[], s.fresh, rfl, by simp, ?_⟩
    rw [exec, execWw64, State.writeWord_ok h0 (by simpa [overRange] using h1) (by omega) (by
      simp only [lacksLine] at h2; by_cases hn : n = 0 <;> simp_all)]
    simp [State.afterCommand, commandEvents, commandValue]
  | rw n =>
    have hn : n.toNat ≤ 64 := by simpa [overRange] using h1
    have hc : s.firstError (some (n, 64)) (lineIfAny n .miso) = none := by
      rw [State.firstError_count h0, if_neg (by omega), if_neg]
      rintro ⟨hz, hp⟩
      simp_all [lacksLine, Cfg.present]
    obtain ⟨bs, hlen, hpre, heq⟩ := State.readLoop_eq n.toNat 0 (s.loadRead n) rfl (by omega)
    refine ⟨bs, s.fresh + n.toNat, by simpa [samplesTaken, readsMiso, bitsTransferred] using hlen,
      by simpa [hlen] using hpre, ?_⟩
    rw [exec, execRw, State.command_ok hc]
    dsimp only
    rw [heq]
    simp [State.emitAll_eq, State.respondOk, State.afterCommand, commandEvents, commandValue, hlen]
  | close =>
    have hc : s.firstError none none = none := by
      simp [State.firstError, State.operandError, State.missingLine, h0]
    exact ⟨[], s.fresh, rfl, by simp, by
      rw [exec, execClose, State.command_ok hc]
      simp [State.disposeAll_eq, State.emitAll_eq, State.respondOk, State.afterCommand, commandEvents, commandValue]⟩

/-- The line a command of an absent line names (R110). -/
theorem rangeInfo_eq (n : BitCount) :
    rangeInfo n 8 = rangeValue n 8 ∧ rangeInfo n 16 = rangeValue n 16 ∧ rangeInfo n 32 = rangeValue n 32 ∧
      rangeInfo n 64 = rangeValue n 64 := by
  have key : ∀ w : BitVec 8, n.setWidth 64 ||| (w.setWidth 64 <<< 8) = rangeValue n w := by
    intro w
    apply BitVec.eq_of_getLsbD_eq
    intro j hj
    simp only [rangeValue, BitVec.getLsbD_or, BitVec.getLsbD_setWidth, BitVec.getLsbD_shiftLeft, BitVec.getLsbD_append, hj]
    rcases Nat.lt_or_ge j 8 with h | h
    · simp [h]
    · simp only [Nat.not_lt.mpr h, decide_true, decide_false, Bool.true_and, Bool.not_false]
      have hnj : n.getLsbD j = false := BitVec.getLsbD_of_ge n j h
      rcases Nat.lt_or_ge (j - 8) 8 with h' | h'
      · simp [hnj, h', show j - 8 < 64 by omega]
      · have : w.getLsbD (j - 8) = false := BitVec.getLsbD_of_ge w _ h'
        simp [hnj, this]
  exact ⟨key 8, key 16, key 32, key 64⟩

/-- A COMMAND THAT FAILS A CHECK answers its error and nothing else. -/
theorem exec_error {i : Instr} {s : State} (h : s.closed = true ∨ overRange i = true ∨ lacksLine s.cfg i = true) :
    exec i s = .next
      (if s.closed = true then Answered s .closed 0
       else if overRange i = true then Answered s .outOfRange (overRangeValue i)
       else Answered s .unsupported (missingLineId i)) := by
  cases hc : s.closed with
  | true =>
    cases i <;>
      simp [exec, execSel1, execSel2, execRel1, execRel2, execWbit, execRbit, execWw8, execWw16, execWw32, execWw64,
        State.writeWord, execRw, execClose, State.command, State.firstError_closed hc, State.raise, Answered]
  | false =>
    have hz : ¬(s.closed = true) := by simp [hc]
    simp only [hc, Bool.false_eq_true, false_or, ↓reduceIte] at h ⊢
    cases i with
    | sel1 => simp [overRange, lacksLine] at h
    | rel1 => simp [overRange, lacksLine] at h
    | close => simp [overRange, lacksLine] at h
    | sel2 | rel2 | wbit _ | rbit =>
      simp [overRange, lacksLine] at h
      simp [exec, execSel2, execRel2, execWbit, execRbit, State.command, State.firstError_line hc, Cfg.present, h,
        State.raise, Answered, overRange, lineInfo, lineId, missingLineId]
    | ww8 w n | ww16 w n | ww32 w n | ww64 w n | rw n =>
      simp only [exec, execWw8, execWw16, execWw32, execWw64, execRw, State.writeWord, State.command,
        State.firstError_count hc, overRange, lacksLine, overRangeValue, missingLineId, decide_eq_true_eq] at h ⊢
      split
      · rename_i r hr
        split at hr
        · injection hr with hr
          subst hr
          simp_all [State.raise, Answered, rangeInfo_eq]
        · split at hr
          · injection hr with hr
            subst hr
            simp_all [State.raise, Answered, lineInfo, lineId]
          · cases hr
      · rename_i hr
        exfalso
        split at hr
        · cases hr
        · split at hr
          · cases hr
          · rename_i h1 h2
            apply h2
            simp_all [Cfg.present]

/-- Every command answers a next state. -/
theorem exec_total (i : Instr) (s : State) : ∃ t, exec i s = .next t := by
  by_cases h : s.closed = true ∨ overRange i = true ∨ lacksLine s.cfg i = true
  · exact ⟨_, exec_error h⟩
  · simp only [not_or, Bool.not_eq_true] at h
    obtain ⟨bs, k, _, _, h'⟩ := exec_ok h.1 h.2.1 h.2.2
    exact ⟨_, h'⟩

/-- INVERSION of `exec`: an error, or the whole command. -/
theorem exec_cases {i : Instr} {s t : State} (h : exec i s = .next t) :
    ((s.closed = true ∨ overRange i = true ∨ lacksLine s.cfg i = true) ∧
      ∃ (st : Status) (v : Word), st ≠ .ok ∧ t = Answered s st v) ∨
    (s.closed = false ∧ overRange i = false ∧ lacksLine s.cfg i = false ∧
      ∃ (bs : List Level) (k : Nat), bs.length = samplesTaken i ∧ s.misoIn.take bs.length <+: bs ∧
        t = s.afterCommand i bs k) := by
  by_cases he : s.closed = true ∨ overRange i = true ∨ lacksLine s.cfg i = true
  · left
    refine ⟨he, ?_⟩
    rw [exec_error he] at h
    injection h with h
    subst h
    split
    · exact ⟨_, _, by simp, rfl⟩
    · split
      · exact ⟨_, _, by simp, rfl⟩
      · exact ⟨_, _, by simp, rfl⟩
  · right
    simp only [not_or, Bool.not_eq_true] at he
    obtain ⟨bs, k, h1, h2, h3⟩ := exec_ok he.1 he.2.1 he.2.2
    rw [h3] at h
    injection h with h
    exact ⟨he.1, he.2.1, he.2.2, bs, k, h1, h2, h.symm⟩

/-- INVERSION of `step`: what a step can be, one line each. -/
theorem step_cases {s t : State} (h : step s = .next t) :
    (∃ p, s.aborting = some p ∧ t = s.construct p) ∨
    (s.aborting = none ∧
      ((∃ p, s.port.rst = .high p ∧ t = s.popInput.construct p) ∨
       (∃ k p, s.port.rst = .rises k p ∧ ¬(s.cmdReady = true ∧ s.port.cmd ≠ none) ∧ t = s.popInput.construct p) ∨
       (∃ k p w u, s.port.rst = .rises k p ∧ s.cmdReady = true ∧ s.port.cmd = some w ∧
          s.popInput.runWord w = .next u ∧ t = s.popInput.cutShort u k p) ∨
       (s.port.rst = .low ∧ s.initDone = false ∧ t = s.popInput.runInit) ∨
       (∃ r, s.port.rst = .low ∧ s.initDone = true ∧ s.rsp = some r ∧
          t = s.popInput.offerResponse r s.port.rspReady) ∨
       (∃ w, Takes s w ∧ s.popInput.runWord w = .next t) ∨
       (s.port.rst = .low ∧ s.cmdReady = true ∧ s.port.cmd = none ∧ t = s.popInput))) := by
  unfold step State.clocked at h
  split at h
  · rename_i p hp; injection h with h; exact .inl ⟨p, hp, h.symm⟩
  · rename_i ha
    refine .inr ⟨ha, ?_⟩
    split at h
    · rename_i p hp; injection h with h; exact .inl ⟨p, hp, h.symm⟩
    · rename_i k p hp
      have hready : s.popInput.cmdReady = s.cmdReady := rfl
      unfold State.resetDuring at h
      split at h
      · rename_i w hr hw
        split at h
        · rename_i u hu
          injection h with h
          exact .inr (.inr (.inl ⟨k, p, w, u, hp, by rw [← hready]; exact hr, hw, hu, h.symm⟩))
        · cases h
        · cases h
      · rename_i hn
        injection h with h
        refine .inr (.inl ⟨k, p, hp, ?_, h.symm⟩)
        rintro ⟨h1, h2⟩
        obtain ⟨w, hw⟩ := Option.ne_none_iff_exists'.mp h2
        exact hn w (by rw [hready]; exact h1) hw
    · rename_i hp
      unfold State.advance at h
      split at h
      · rename_i hi; injection h with h; exact .inr (.inr (.inr (.inl ⟨hp, hi, h.symm⟩)))
      · rename_i hi
        have hi' : s.initDone = true := by simpa using hi
        split at h
        · rename_i _ r hr
          injection h with h
          exact .inr (.inr (.inr (.inr (.inl ⟨r, hp, hi', hr, h.symm⟩))))
        · rename_i w hr hw
          exact .inr (.inr (.inr (.inr (.inr (.inl
            ⟨w, ⟨by simp [State.cmdReady, hi', ha, show s.rsp = none from hr], hp, hw⟩, h⟩)))))
        · rename_i hr hw
          injection h with h
          exact .inr (.inr (.inr (.inr (.inr (.inr
            ⟨hp, by simp [State.cmdReady, hi', ha, show s.rsp = none from hr], hw, h.symm⟩)))))

/-- A step that takes a command runs its word. -/
theorem step_of_takes {s : State} {w : CmdWord} (h : Takes s w) : step s = s.popInput.runWord w := by
  obtain ⟨h1, h2, h3⟩ := h
  simp only [State.cmdReady, Bool.and_eq_true, Option.isNone_iff_eq_none] at h1
  simp [step, State.clocked, h1.1.2, h2, State.advance, h1.1.1, h1.2, h3]

end Sys2Proof.Machine
end

