-- ==== Sys2Proof/Laws/Channel.lean ====
section
/-! SUPPORT. Once, everything a command word can do on the channel, and what a reset leaves of a command it cuts short. -/

namespace Sys2Proof.Machine

/-- Every command word is answered by a next state. -/
theorem runWord_total (s : State) (w : CmdWord) : ∃ t, s.runWord w = .next t := by
  unfold State.runWord
  split
  · exact exec_total _ _
  · exact ⟨_, rfl⟩

/-- A command word either answers an error and changes the response only, or is a command that runs whole. -/
theorem runWord_cases {s t : State} {w : CmdWord} (h : s.runWord w = .next t) :
    (∃ (st : Status) (v : Word), st ≠ .ok ∧ t = Answered s st v) ∨
    ∃ (i : Instr) (bs : List Level) (k : Nat), decode w = .instr i ∧ s.closed = false ∧ overRange i = false ∧
      lacksLine s.cfg i = false ∧ bs.length = samplesTaken i ∧ s.misoIn.take bs.length <+: bs ∧
      t = s.afterCommand i bs k := by
  unfold State.runWord at h
  split at h
  · rename_i i hi
    rcases exec_cases h with ⟨_, st, v, hs, rfl⟩ | ⟨h0, h1, h2, bs, k, h3, h4, rfl⟩
    · exact .inl ⟨st, v, hs, rfl⟩
    · exact .inr ⟨i, bs, k, hi, h0, h1, h2, h3, h4, rfl⟩
  · injection h with h
    exact .inl ⟨.illegal, 0, by simp, h.symm⟩

/-- Of a command cut short after `k` of its events `es`, those events have happened, on the trace and on the lines. -/
theorem State.cutShort_events {s t : State} {es : List Event} (k : Nat) (p : Straps) (h : t.trace = s.trace ++ es) :
    (s.cutShort t k p).trace = s.trace ++ es.take k ∧ (s.cutShort t k p).lines = s.lines.replay (es.take k) := by
  simp [State.cutShort, h]

end Sys2Proof.Machine
end

