-- ==== Sys2Proof/Laws/Encoding.lean ====
section
/-! SUPPORT. The fields of a packed command word are the fields it was packed from (spec/30_encoding.md R50). -/

namespace Sys2Proof

theorem cmdOp_packCmd (op : BitVec 4) (n : BitCount) (d : Word) : cmdOp (packCmd op n d) = op := by
  apply BitVec.eq_of_getLsbD_eq
  intro i hi
  simp only [cmdOp, packCmd, BitVec.getLsbD_extractLsb', BitVec.getLsbD_append]
  simp [hi, show ¬ 72 + i < 64 by omega, show ¬ (72 + i - 64 < 8) by omega, show 72 + i - 64 - 8 = i by omega]

theorem cmdN_packCmd (op : BitVec 4) (n : BitCount) (d : Word) : cmdN (packCmd op n d) = n := by
  apply BitVec.eq_of_getLsbD_eq
  intro i hi
  simp only [cmdN, packCmd, BitVec.getLsbD_extractLsb', BitVec.getLsbD_append]
  simp [hi, show ¬ 64 + i < 64 by omega]

theorem cmdData_packCmd (op : BitVec 4) (n : BitCount) (d : Word) : cmdData (packCmd op n d) = d := by
  apply BitVec.eq_of_getLsbD_eq
  intro i hi
  simp only [cmdData, packCmd, BitVec.getLsbD_extractLsb', BitVec.getLsbD_append]
  simp [hi]

/-- A command word is its three fields. -/
theorem packCmd_fields (w : CmdWord) : packCmd (cmdOp w) (cmdN w) (cmdData w) = w := by
  apply BitVec.eq_of_getLsbD_eq
  intro i hi
  simp only [cmdOp, cmdN, cmdData, packCmd, BitVec.getLsbD_extractLsb', BitVec.getLsbD_append]
  by_cases h1 : i < 64
  · simp [h1]
  · by_cases h2 : i - 64 < 8
    · simp [h1, h2, show 64 + (i - 64) = i by omega]
    · simp [h1, h2, show i - 64 - 8 < 4 by omega, show 72 + (i - 64 - 8) = i by omega]

end Sys2Proof
end

