-- ==== Sys2Proof/Laws/Monitor.lean ====
section
/-! SUPPORT. The bus monitor over lists of events, and what a list of events does to the open bits, the driven bits and the
levels. -/

namespace Sys2Proof.Machine

theorem Monitor.run_append (h : Ticks) (m : Monitor) (es fs : List Event) :
    m.run h (es ++ fs) = (m.run h es).bind (fun m' => m'.run h fs) := by
  induction es generalizing m with
  | nil => rfl
  | cons e es ih =>
    simp only [List.cons_append, Monitor.run]
    cases m.next h e with
    | none => rfl
    | some m' => exact ih m'

/-- An event the monitor lets pass is one it allows, and it takes the event's effect on the lines. -/
theorem Monitor.next_some {h : Ticks} {m m' : Monitor} {e : Event} (hh : m.next h e = some m') :
    m.allows h e = true ∧ m'.lines = m.lines.apply e := by
  unfold Monitor.next at hh
  split at hh
  · rename_i ha
    injection hh with hh
    subst hh
    exact ⟨ha, rfl⟩
  · cases hh

/-- A run that passes splits at any point. -/
theorem Monitor.run_split {h : Ticks} {m m' : Monitor} {es fs : List Event} (hh : m.run h (es ++ fs) = some m') :
    ∃ m1, m.run h es = some m1 ∧ m1.run h fs = some m' := by
  rw [Monitor.run_append] at hh
  cases hx : m.run h es with
  | none => simp [hx] at hh
  | some m1 => exact ⟨m1, rfl, by simpa [hx] using hh⟩

theorem Monitor.run_cons {h : Ticks} {m m' : Monitor} {e : Event} {es : List Event} (hh : m.run h (e :: es) = some m') :
    ∃ m1, m.next h e = some m1 ∧ m1.run h es = some m' := by
  simp only [Monitor.run] at hh
  split at hh
  · rename_i m1 hm
    exact ⟨m1, hm, hh⟩
  · cases hh

/-- The monitor's lines are what the events make them. -/
theorem Monitor.run_lines {h : Ticks} {m m' : Monitor} {es : List Event} (hh : m.run h es = some m') :
    m'.lines = m.lines.replay es := by
  induction es generalizing m with
  | nil => injection hh with hh; subst hh; rfl
  | cons e es ih =>
    obtain ⟨m1, h1, h2⟩ := Monitor.run_cons hh
    rw [ih h2, (Monitor.next_some h1).2]
    rfl

/-- An allowed event touches only an open line (R31, R46). -/
theorem Monitor.allows_open {h : Ticks} {m : Monitor} {e : Event} {l : Line} (hh : m.allows h e = true)
    (hl : eventLine e = some l) : m.lines.isOpen l = true := by
  cases e with
  | write o v =>
    cases o <;> cases v <;> simp [eventLine, toLine] at hl <;> subst hl <;>
      simp [Monitor.allows, Lines.isOpen] at hh ⊢ <;> simp [hh]
  | sample b => simp [eventLine] at hl; subst hl; simp [Monitor.allows] at hh; exact hh.1
  | hold t => simp [eventLine] at hl
  | dispose m => simp [eventLine] at hl; subst hl; simp [Monitor.allows] at hh; exact hh.1

theorem Lines.apply_isOpen (ln : Lines) (e : Event) (l : Line) :
    (ln.apply e).isOpen l = (ln.isOpen l && !decide (e = .dispose l)) := by
  cases e with
  | write o v => cases o <;> cases l <;> simp [Lines.apply, Lines.setOut, Lines.isOpen, Lines.out]
  | sample b => simp
  | hold t => simp
  | dispose m => cases m <;> cases l <;> simp [Lines.apply, Lines.shut, Lines.isOpen]

/-- A line is open after a list of events when it was before and the list does not dispose it. -/
theorem Lines.replay_isOpen (ln : Lines) (es : List Event) (l : Line) :
    (ln.replay es).isOpen l = (ln.isOpen l && !decide (Event.dispose l ∈ es)) := by
  induction es generalizing ln with
  | nil => simp
  | cons e es ih =>
    rw [Lines.replay_cons, ih, Lines.apply_isOpen]
    by_cases h : e = .dispose l <;> by_cases h2 : Event.dispose l ∈ es <;> simp [h, h2, Ne.symm]

theorem Lines.apply_driven (ln : Lines) (e : Event) (l : OutLine) :
    ((ln.apply e).out l).driven = ((ln.out l).driven || decide (∃ v, e = .write l v)) := by
  cases e with
  | write o v => cases o <;> cases l <;> simp [Lines.apply, Lines.setOut, Lines.out]
  | sample b => simp
  | hold t => simp
  | dispose m => cases m <;> cases l <;> simp [Lines.apply, Lines.shut, Lines.out]

/-- A line is driven after a list of events when it was before or the list writes it. -/
theorem Lines.replay_driven (ln : Lines) (es : List Event) (l : OutLine) :
    ((ln.replay es).out l).driven = true ↔ ((ln.out l).driven = true ∨ ∃ v, Event.write l v ∈ es) := by
  induction es generalizing ln with
  | nil => simp
  | cons e es ih =>
    rw [Lines.replay_cons, ih, Lines.apply_driven]
    simp only [Bool.or_eq_true, decide_eq_true_eq, List.mem_cons]
    constructor
    · rintro ((h | ⟨v, rfl⟩) | ⟨v, h⟩)
      · exact .inl h
      · exact .inr ⟨v, .inl rfl⟩
      · exact .inr ⟨v, .inr h⟩
    · rintro (h | ⟨v, h | h⟩)
      · exact .inl (.inl h)
      · exact .inl (.inr ⟨v, h.symm⟩)
      · exact .inr ⟨v, h⟩

/-- A list of events that neither writes nor disposes a line leaves its level. -/
theorem Lines.replay_level (ln : Lines) (es : List Event) (l : OutLine) (h : ∀ u, Event.write l u ∉ es)
    (hd : Event.dispose (toLine l) ∉ es) : ((ln.replay es).out l).level = (ln.out l).level := by
  induction es generalizing ln with
  | nil => rfl
  | cons e es ih =>
    rw [Lines.replay_cons, ih _ (fun u hu => h u (List.mem_cons_of_mem _ hu)) (fun hu => hd (List.mem_cons_of_mem _ hu))]
    cases e with
    | write o v =>
      have : l ≠ o := by rintro rfl; exact h v (by simp)
      rw [Lines.apply_write_out_ne _ _ this]
    | sample b => simp
    | hold t => simp
    | dispose m =>
      have : m ≠ toLine l := by rintro rfl; exact hd (by simp)
      rw [Lines.apply_dispose_out_ne _ this]

end Sys2Proof.Machine
end

