-- ==== Sys2Proof/Laws/PerInstr.lean ====
section
/-! SUPPORT. The family `Fields`: what stands in the fields of a command's word, one lemma per command
(spec/30_encoding.md R50 to R55). -/

namespace Sys2Proof.Laws.Fields

/-- The fields of the command's word are its opcode, its bit count and its data, and the opcode is none of the reserved
ones. -/
def Statement (i : Instr) : Prop :=
  cmdOp (encode i) = i.opcode ∧ cmdN (encode i) = i.nField ∧ cmdData (encode i) = i.dataField ∧
    i.opcode ≠ 0x0 ∧ i.opcode ≠ 0xD ∧ i.opcode ≠ 0xE ∧ i.opcode ≠ 0xF

theorem fields_encode (i : Instr) : Statement i :=
  ⟨cmdOp_packCmd _ _ _, cmdN_packCmd _ _ _, cmdData_packCmd _ _ _, by cases i <;> simp [Instr.opcode]⟩

theorem sel1 : Statement .sel1 := fields_encode _
theorem sel2 : Statement .sel2 := fields_encode _
theorem rel1 : Statement .rel1 := fields_encode _
theorem rel2 : Statement .rel2 := fields_encode _
theorem wbit (b : Level) : Statement (.wbit b) := fields_encode _
theorem rbit : Statement .rbit := fields_encode _
theorem ww8 (w : BitVec 8) (n : BitCount) : Statement (.ww8 w n) := fields_encode _
theorem ww16 (w : BitVec 16) (n : BitCount) : Statement (.ww16 w n) := fields_encode _
theorem ww32 (w : BitVec 32) (n : BitCount) : Statement (.ww32 w n) := fields_encode _
theorem ww64 (w : BitVec 64) (n : BitCount) : Statement (.ww64 w n) := fields_encode _
theorem rw (n : BitCount) : Statement (.rw n) := fields_encode _
theorem close : Statement .close := fields_encode _

end Sys2Proof.Laws.Fields
end

