-- ==== Sys2Proof/Tests/Slice0.lean ====
section
/-! SUPPORT. Tests of the model and the witnesses of the statements' hypotheses. Every expected result is copied from
spec/95_test_vectors.md (the vector's id stands in the docstring) or worked out by hand from the rule named. -/

namespace Sys2Proof.Tests

open Sys2Proof.Machine

/-! ### Decoding: words written out from the fields of R50, one for each command -/

/-- V-SEL-11. -/
theorem test_decode_sel1 : decode 0x1FFFFFFFFFFFFFFFFFF#76 = .instr .sel1 := by decide
/-- V-SEL-2. -/
theorem test_decode_sel2 : decode 0x2000000000000000000#76 = .instr .sel2 := by decide
/-- V-SEL-4. -/
theorem test_decode_rel1 : decode 0x3000000000000000000#76 = .instr .rel1 := by decide
/-- V-SEL-5. -/
theorem test_decode_rel2 : decode 0x4000000000000000000#76 = .instr .rel2 := by decide
/-- V-BIT-1 and V-BIT-3: bit 0 of `data` alone counts. -/
theorem test_decode_wbit : decode 0x5000000000000000001#76 = .instr (.wbit true) ∧
    decode 0x5FFFFFFFFFFFFFFFFFE#76 = .instr (.wbit false) := by decide
/-- V-BIT-5. -/
theorem test_decode_rbit : decode 0x6000000000000000000#76 = .instr .rbit := by decide
/-- V-WW8-1 and V-WW8-17: bits 63:8 of `data` are ignored. -/
theorem test_decode_ww8 : decode 0x70800000000000000B4#76 = .instr (.ww8 0xB4 8) ∧
    decode 0x708FFFFFFFFFFFFFF00#76 = .instr (.ww8 0 8) := by decide
/-- V-WW16-3. -/
theorem test_decode_ww16 : decode 0x80C000000000000ABCD#76 = .instr (.ww16 0xABCD 12) := by decide
/-- V-WW32-1. -/
theorem test_decode_ww32 : decode 0x92000000000DEADBEEF#76 = .instr (.ww32 0xDEADBEEF 32) := by decide
/-- V-WW64-3. -/
theorem test_decode_ww64 : decode 0xA400123456789ABCDEF#76 = .instr (.ww64 0x0123456789ABCDEF 64) := by decide
/-- V-RW-15 and V-RW-18: a count above 64 is a legal encoding, and `data` is ignored. -/
theorem test_decode_rw : decode 0xBFF0000000000000000#76 = .instr (.rw 255) ∧
    decode 0xB04FFFFFFFFFFFFFFFF#76 = .instr (.rw 4) := by decide
/-- V-CLOSE-1. -/
theorem test_decode_close : decode 0xC000000000000000000#76 = .instr .close := by decide
/-- V-ERR-1, V-ERR-2, V-ERR-3. -/
theorem test_decode_reserved : decode 0x0000000000000000000#76 = .reserved 0x0 ∧
    decode 0xD000000000000000000#76 = .reserved 0xD ∧ decode 0xE000000000000000000#76 = .reserved 0xE ∧
    decode 0xF0000000000000000FF#76 = .reserved 0xF := by decide
/-- R60 writes ignored fields as zero: V-WW8-1 and V-BIT-1 from the other side. -/
theorem test_encode : encode (.ww8 0xB4 8) = 0x70800000000000000B4#76 ∧ encode (.wbit true) = 0x5000000000000000001#76 := by
  decide
/-- The host's view: a row of 76 bits in 80, and no command above them (log 20). -/
theorem test_decode_table_word : decodeTableWord 80 0x70800000000000000B4 = some (.ww8 0xB4 8) ∧
    decodeTableWord 80 0xD000000000000000000 = none ∧ decodeTableWord 80 0x11000000000000000000 = none := by decide

/-! ### WellFormed: an ill-formed term for each check, which the check refuses -/

/-- R60: `b` is 0 or 1. -/
theorem test_refuses_wbit : (AsmCmd.wbit 2).wellFormed = false ∧ (AsmCmd.wbit 1).wellFormed = true := by decide
/-- R60: `w` fits 8 bits, `n` is 0 to 255. -/
theorem test_refuses_ww8 : (AsmCmd.ww8 256 8).wellFormed = false ∧ (AsmCmd.ww8 255 256).wellFormed = false ∧
    (AsmCmd.ww8 255 255).wellFormed = true := by decide
/-- R60: `w` fits 16 bits. -/
theorem test_refuses_ww16 : (AsmCmd.ww16 0x10000 16).wellFormed = false ∧ (AsmCmd.ww16 0xFFFF 256).wellFormed = false := by
  decide
/-- R60: `w` fits 32 bits. -/
theorem test_refuses_ww32 :
    (AsmCmd.ww32 0x100000000 32).wellFormed = false ∧ (AsmCmd.ww32 0 256).wellFormed = false := by decide
/-- R60: `w` fits 64 bits. -/
theorem test_refuses_ww64 :
    (AsmCmd.ww64 0x10000000000000000 64).wellFormed = false ∧ (AsmCmd.ww64 0 256).wellFormed = false := by decide
/-- R60: `n` is 0 to 255. -/
theorem test_refuses_rw : (AsmCmd.rw 256).wellFormed = false ∧ (AsmCmd.rw 256).assemble = none := by decide
/-- R61: each command of a body must fit. -/
theorem test_refuses_items : (AsmItem.cmd (.wbit 2)).wellFormed = false ∧
    (AsmItem.with1 [.rbit, .rw 256]).wellFormed = false ∧ (AsmItem.with2 [.ww8 256 1]).wellFormed = false := by decide
/-- R2: `T_HOLD` is positive. -/
theorem test_refuses_straps :
    ({ endian := .little, hasCs2 := true, hasMosi := true, hasMiso := true, holdTicks := 0 } : Straps).wellFormed = false := by
  decide
/-- R141 (a): a transfer outside every scope. -/
theorem test_refuses_transfer_outside : wellScoped true [.wbit true] = false := by decide
/-- R141 (b): a second select inside a scope. -/
theorem test_refuses_second_select : wellScoped true [.sel1, .sel2, .rel1, .rel2] = false := by decide
/-- R141 (c): a release without its select, and of the other line. -/
theorem test_refuses_stray_release :
    wellScoped true [.rel1] = false ∧ wellScoped true [.sel1, .rel2] = false := by decide
/-- R141 (d): CLOSE with a scope outstanding; a transfer whose scope is never released. -/
theorem test_refuses_close_inside : wellScoped true [.sel1, .close] = false ∧ wellScoped true [.sel1, .rbit] = false := by
  decide
/-- R141 (e): a command after CLOSE. -/
theorem test_refuses_after_close : wellScoped true [.close, .close] = false := by decide
/-- P4 is well-scoped, P5 is not (95_test_vectors.md part 3). -/
theorem test_well_scoped_programs :
    wellScoped true [.sel1, .ww16 0x1234 16, .rel1, .sel2, .rw 12, .rel2, .close] = true ∧
    wellScoped false [.sel1, .rel1, .sel1, .wbit true, .rel1, .rel1, .wbit false, .rbit] = false := by decide

/-! ### The assembler's text -/

/-- The text of P1. The braces are given by their codes. -/
def textP1 : List Char :=
  "CONFIG ENDIAN=Big CS2=0 MOSI=1 MISO=0\nWITH1 ".toList ++ [Char.ofNat 123] ++
    "\n    WW8 0xA5, 8 ; one byte\n".toList ++ [Char.ofNat 125]

/-- P1: what the text says, and its three words. -/
theorem test_text_p1 : parseProgram textP1 = some
      { config := some { endian := .big, hasCs2 := false, hasMosi := true, hasMiso := false }
        items := [.with1 [.ww8 0xA5 8]] } ∧
    (parseProgram textP1).bind AsmProgram.words =
      some [0x1000000000000000000#76, 0x70800000000000000A5#76, 0x3000000000000000000#76] := by decide

/-- R60: unknown mnemonics, missing operands and unclosed bodies are no program; a word too wide is refused. -/
theorem test_text_refused : parseProgram "NOP".toList = none ∧ parseProgram "WW8 1".toList = none ∧
    parseProgram ("WITH2 ".toList ++ [Char.ofNat 123] ++ "\nRBIT\n".toList) = none ∧
    (parseProgram "WW8 256, 8".toList).bind AsmProgram.words = none := by decide

/-! ### One step -/

/-- An engine after reset and INIT under the given straps, `T_HOLD` being 5 ticks, with the coming MISO answers. -/
def engine (e : Endian) (cs2 mosi miso : Bool) (answers : List Level) : State :=
  { State.reset.boot { endian := e, hasCs2 := cs2, hasMosi := mosi, hasMiso := miso, holdTicks := 5 } with misoIn := answers }

/-- The state a step leads to. -/
def after (s : State) : State :=
  match step s with
  | .next t => t
  | .fault _ => s
  | .refused _ => s

/-- A step that answers a next state leads to `after s`. -/
theorem step_after {s : State} (h : (match step s with | .next _ => true | .fault _ => false | .refused _ => false) = true) :
    step s = .next (after s) := by
  unfold after
  cases hs : step s <;> simp [hs] at h ⊢

/-- A command that answers a next state leads to `s.issue i`. -/
theorem exec_issue {i : Instr} {s : State}
    (h : (match exec i s with | .next _ => true | .fault _ => false | .refused _ => false) = true) :
    exec i s = .next (s.issue i) := by
  unfold State.issue
  cases hs : exec i s <;> simp [hs] at h ⊢

/-- The state after the host presents a command word and the engine steps. -/
def ask (s : State) (w : CmdWord) : State := after (s.present w)

/-- The events of the step and the response word. -/
def answer (s : State) (w : CmdWord) : List Event × Option RspWord :=
  ((ask s w).trace.drop s.trace.length, (ask s w).rsp.map Response.toBits)

/-- One chip-select line low. -/
def low (l : OutLine) (s : State) : State := s.lineWrite l false

/-- `P` of 95_test_vectors.md. -/
def P : List Event := [.write .sclk true, .hold 5, .write .sclk false]

/-- V-INIT-1 and V-INIT-4. -/
theorem test_init : (engine .little false false false []).trace = [.write .sclk false, .write .cs1 true] ∧
    (engine .little true false true []).trace = [.write .sclk false, .write .cs1 true, .write .cs2 true] ∧
    (engine .little true false true []).phase = .idle := by decide

/-- V-SEL-11 and V-SEL-1. -/
theorem test_sel1 :
    answer (engine .little false false false []) 0x1FFFFFFFFFFFFFFFFFF#76 = ([.write .cs1 false], some 0x00000000000000001#67) ∧
    (ask (engine .little false false false []) 0x1FFFFFFFFFFFFFFFFFF#76).phase = .selected := by decide

/-- V-SEL-9: both slaves selected. -/
theorem test_sel2 :
    answer (low .cs1 (engine .little true true true [])) 0x2000000000000000000#76 =
      ([.write .cs2 false], some 0x00000000000000002#67) ∧
    bothSelected (ask (low .cs1 (engine .little true true true [])) 0x2000000000000000000#76) = true := by decide

/-- V-SEL-3. -/
theorem test_sel2_absent :
    answer (engine .little false true true []) 0x2000000000000000000#76 = ([], some 0x10000000000000002#67) := by decide

/-- V-SEL-10: CS1 = 1, CS2 = 0, phase still Selected. -/
theorem test_rel1 :
    answer (low .cs2 (low .cs1 (engine .little true true true []))) 0x3000000000000000000#76 =
      ([.write .cs1 true], some 0x00000000000000000#67) ∧
    (ask (low .cs2 (low .cs1 (engine .little true true true []))) 0x3000000000000000000#76).phase = .selected := by decide

/-- V-SEL-5, and V-SEL-6. -/
theorem test_rel2 :
    answer (low .cs2 (engine .little true true true [])) 0x4000000000000000000#76 =
      ([.write .cs2 true], some 0x00000000000000000#67) ∧
    answer (engine .little false true true []) 0x4000000000000000000#76 = ([], some 0x10000000000000002#67) := by decide

/-- V-BIT-9: WBIT does not need MISO; V-BIT-4. -/
theorem test_wbit :
    answer (engine .little false true false []) 0x5000000000000000001#76 =
      (.write .mosi true :: P, some 0x00000000000000000#67) ∧
    answer (engine .little false false false []) 0x5000000000000000001#76 = ([], some 0x10000000000000003#67) := by decide

/-- V-BIT-10: RBIT does not need MOSI; V-BIT-7. -/
theorem test_rbit :
    answer (engine .little false false true [true]) 0x6000000000000000000#76 =
      (P ++ [.sample true], some 0x00000000000000001#67) ∧
    answer (engine .little false true false []) 0x6000000000000000000#76 = ([], some 0x10000000000000004#67) := by decide

/-- V-WW8-10: bits 2, 1, 0 of the word, each before its pulse. -/
theorem test_ww8 :
    answer (engine .little false true false []) 0x7030000000000000006#76 =
      (.write .mosi true :: (P ++ .write .mosi true :: (P ++ .write .mosi false :: P)), some 0x00000000000000000#67) := by
  decide

/-- V-ERR-5: OUT_OF_RANGE before UNSUPPORTED; V-WW8-19: no bits, no line needed. -/
theorem test_ww8_edges :
    answer (engine .little false false false []) 0x70900000000000000FF#76 = ([], some 0x20000000000000809#67) ∧
    answer (engine .little false false false []) 0x7000000000000000000#76 = ([], some 0x00000000000000000#67) := by decide

/-- V-WW16-5 under LE: nine bits of a 16-bit word; V-WW16-6. -/
theorem test_ww16 :
    mosiBits (answer (engine .little false true false []) 0x809000000000000ABCD#76).1 =
      [true, true, true, false, false, true, true, false, true] ∧
    answer (engine .little false true false []) 0x811000000000000ABCD#76 = ([], some 0x20000000000001011#67) := by decide

/-- V-WW32-4; V-WW32-6. -/
theorem test_ww32 :
    mosiBits (answer (engine .big false true false []) 0x9140000000000012345#76).1 =
      [true, false, true, false, false, false, true, false, true, true, false, false, false, true, false, false, true, false,
        false, false] ∧
    answer (engine .big false true false []) 0x9210000000000000000#76 = ([], some 0x20000000000002021#67) := by decide

set_option maxRecDepth 4000 in
/-- V-WW64-1: bit 63 first; V-WW64-6. -/
theorem test_ww64 :
    mosiBits (answer (engine .little false true false []) 0xA408000000000000000#76).1 = true :: List.replicate 63 false ∧
    answer (engine .little false true false []) 0xA410000000000000000#76 = ([], some 0x20000000000004041#67) := by decide

/-- V-RW-7 and V-RW-8: the same samples under the two orders. -/
theorem test_rw :
    (answer (engine .little false false true [true, true, false, false, true, false, true, false, true, true, true, true])
      0xB0C0000000000000000#76).2 = some 0x00000000000000CAF#67 ∧
    (answer (engine .big false false true [true, true, false, false, true, false, true, false, true, true, true, true])
      0xB0C0000000000000000#76).2 = some 0x00000000000000F53#67 := by decide

set_option maxRecDepth 4000 in
/-- V-ERR-7; V-RW-10: 64 samples, the first at bit 63. -/
theorem test_rw_edges :
    answer (engine .little false true false []) 0xB410000000000000000#76 = ([], some 0x20000000000004041#67) ∧
    (answer (engine .little false false true (true :: List.replicate 63 false)) 0xB400000000000000000#76).2 =
      some 0x08000000000000000#67 := by decide

/-- V-CLOSE-3: no deassertion first; the phase is Closed. -/
theorem test_close :
    answer (low .cs1 (engine .little false true true [])) 0xC000000000000000000#76 =
      ([.dispose .sclk, .dispose .cs1, .dispose .mosi, .dispose .miso], some 0x00000000000000000#67) ∧
    (ask (low .cs1 (engine .little false true true [])) 0xC000000000000000000#76).phase = .closed := by decide

/-- An engine that has executed CLOSE and whose response has been taken. -/
def closedEngine : State :=
  { ask (engine .little true true true []) 0xC000000000000000000#76 with rsp := none, dp := State.reset.dp }

/-- V-CLOSE-4, V-CLOSE-6, V-ERR-3. -/
theorem test_after_close :
    answer closedEngine 0xC000000000000000000#76 = ([], some 0x30000000000000000#67) ∧
    answer closedEngine 0xB000000000000000000#76 = ([], some 0x30000000000000000#67) ∧
    answer closedEngine 0xF0000000000000000FF#76 = ([], some 0x40000000000000000#67) := by decide

/-- V-IDX. -/
theorem test_idx : idx .little 12 5 = 6 ∧ idx .big 12 5 = 5 ∧ idx .little 64 0 = 63 ∧ idx .little 1 0 = 0 := by decide

/-- The straps of the reset witnesses. -/
def straps : Straps := { endian := .big, hasCs2 := false, hasMosi := true, hasMiso := false, holdTicks := 7 }

/-- A state whose host asserts `rst` as given while it presents a word. -/
def withPort (s : State) (r : RstIn) (w : Option CmdWord) (ready : Bool) : State :=
  { s with inputs := [{ rst := r, cmd := w, rspReady := ready }] }

/-- R134: a WW8 cut after its second event leaves SCLK high, without a response; the next step is the reset. -/
theorem test_reset_during_command :
    (after (withPort (engine .little true true true []) (.rises 2 straps) (some 0x70800000000000000B4#76) false)).trace =
      [.write .sclk false, .write .cs1 true, .write .cs2 true, .write .mosi false, .write .mosi true, .write .sclk true] ∧
    (after (after (withPort (engine .little true true true []) (.rises 2 straps) (some 0x70800000000000000B4#76) false))).phase =
      .constructed := by decide

/-! ### Witnesses: for each statement with hypotheses, values that meet them all, one for each clause -/

/-- An engine with every optional line. -/
def full : State := engine .little true true true []

/-- An engine without optional lines. -/
def bare : State := engine .big false false false []

theorem witness_ResetConstructsTheEngine :
    (withPort full (.high straps) none false).aborting = none ∧
    (withPort full (.high straps) none false).port.rst = .high straps := by decide

/-- The states of `witness_InitDrivesTheLinesIdle`: reset, with all optional lines and with none. -/
theorem witness_InitDrivesTheLinesIdle :
    (State.reset.initDone = false ∧ State.reset.aborting = none ∧ State.reset.closed = false ∧ State.reset.port.rst = .low ∧
      State.reset.cfg.hasCs2 = true ∧ State.reset.cfg.hasMosi = true) ∧
    ((State.reset.construct { straps with hasMosi := false }).initDone = false ∧
      (State.reset.construct { straps with hasMosi := false }).aborting = none ∧
      (State.reset.construct { straps with hasMosi := false }).closed = false ∧
      (State.reset.construct { straps with hasMosi := false }).port.rst = .low ∧
      (State.reset.construct { straps with hasMosi := false }).cfg.hasCs2 = false ∧
      (State.reset.construct { straps with hasMosi := false }).cfg.hasMosi = false) := by decide

theorem witness_ConfigurationChangesOnlyAtReset :
    step State.reset = .next (after State.reset) ∧
    step (withPort full (.high straps) none false) = .next (after (withPort full (.high straps) none false)) :=
  ⟨step_after (by decide), step_after (by decide)⟩

theorem witness_IndexFunctionIsABijection : (1 ≤ 64 ∧ 64 ≤ 64 ∧ 63 < 64) ∧ (1 ≤ 1 ∧ 1 ≤ 64 ∧ 0 < 1) := by decide

theorem witness_Sel1AssertsChipSelectOne : closedEngine.closed = true ∧ bare.closed = false ∧ bare.initDone = true := by decide

theorem witness_Sel2AssertsChipSelectTwo : closedEngine.closed = true ∧ (bare.closed = false ∧ bare.cfg.hasCs2 = false) ∧
    (full.closed = false ∧ full.cfg.hasCs2 = true ∧ full.initDone = true) := by decide

/-- Both branches of the phase: CS2 low, and CS2 absent. -/
theorem witness_Rel1DeassertsChipSelectOne : closedEngine.closed = true ∧
    ((low .cs2 full).closed = false ∧ (low .cs2 full).cfg.hasCs2 = true ∧ (low .cs2 full).lines.cs2.level = false) ∧
    (bare.closed = false ∧ bare.cfg.hasCs2 = false) := by decide

theorem witness_Rel2DeassertsChipSelectTwo : closedEngine.closed = true ∧ (bare.closed = false ∧ bare.cfg.hasCs2 = false) ∧
    (full.closed = false ∧ full.cfg.hasCs2 = true ∧ full.lines.cs1.level = true) ∧
    ((low .cs1 full).closed = false ∧ (low .cs1 full).cfg.hasCs2 = true ∧ (low .cs1 full).lines.cs1.level = false) := by decide

theorem witness_WbitSetsDataThenPulses : closedEngine.closed = true ∧ (bare.closed = false ∧ bare.cfg.hasMosi = false) ∧
    (full.closed = false ∧ full.cfg.hasMosi = true) := by decide

theorem witness_RbitPulsesThenSamples : closedEngine.closed = true ∧ (bare.closed = false ∧ bare.cfg.hasMiso = false) ∧
    (full.closed = false ∧ full.cfg.hasMiso = true) := by decide

/-- The four clauses of `WritesWord` at width 8: closed; one above the width; at the width without the line; at the width
with it, and with no bits without it. -/
theorem witness_Ww8SendsTheLowBits : closedEngine.closed = true ∧ (full.closed = false ∧ (8 : BitVec 8) < (9 : BitCount)) ∧
    (bare.closed = false ∧ (8 : BitCount) ≤ (8 : BitVec 8) ∧ (8 : BitCount) ≠ 0 ∧ bare.cfg.hasMosi = false) ∧
    (full.closed = false ∧ (8 : BitCount) ≤ (8 : BitVec 8) ∧ ((8 : BitCount) = 0 ∨ full.cfg.hasMosi = true)) ∧
    (bare.closed = false ∧ (0 : BitCount) ≤ (8 : BitVec 8) ∧ ((0 : BitCount) = 0 ∨ bare.cfg.hasMosi = true)) := by decide

/-- As for width 8, at width 16. -/
theorem witness_Ww16SendsTheLowBits : closedEngine.closed = true ∧ (full.closed = false ∧ (16 : BitVec 8) < (17 : BitCount)) ∧
    (bare.closed = false ∧ (16 : BitCount) ≤ (16 : BitVec 8) ∧ (16 : BitCount) ≠ 0 ∧ bare.cfg.hasMosi = false) ∧
    (full.closed = false ∧ (16 : BitCount) ≤ (16 : BitVec 8) ∧ ((16 : BitCount) = 0 ∨ full.cfg.hasMosi = true)) ∧
    (bare.closed = false ∧ (0 : BitCount) ≤ (16 : BitVec 8) ∧ ((0 : BitCount) = 0 ∨ bare.cfg.hasMosi = true)) := by decide

/-- As for width 8, at width 32. -/
theorem witness_Ww32SendsTheLowBits : closedEngine.closed = true ∧ (full.closed = false ∧ (32 : BitVec 8) < (33 : BitCount)) ∧
    (bare.closed = false ∧ (32 : BitCount) ≤ (32 : BitVec 8) ∧ (32 : BitCount) ≠ 0 ∧ bare.cfg.hasMosi = false) ∧
    (full.closed = false ∧ (32 : BitCount) ≤ (32 : BitVec 8) ∧ ((32 : BitCount) = 0 ∨ full.cfg.hasMosi = true)) ∧
    (bare.closed = false ∧ (0 : BitCount) ≤ (32 : BitVec 8) ∧ ((0 : BitCount) = 0 ∨ bare.cfg.hasMosi = true)) := by decide

/-- As for width 8, at width 64, and the largest count. -/
theorem witness_Ww64SendsTheLowBits : closedEngine.closed = true ∧ (full.closed = false ∧ (64 : BitVec 8) < (65 : BitCount)) ∧
    (full.closed = false ∧ (64 : BitVec 8) < (255 : BitCount)) ∧
    (bare.closed = false ∧ (64 : BitCount) ≤ (64 : BitVec 8) ∧ (64 : BitCount) ≠ 0 ∧ bare.cfg.hasMosi = false) ∧
    (full.closed = false ∧ (64 : BitCount) ≤ (64 : BitVec 8) ∧ ((64 : BitCount) = 0 ∨ full.cfg.hasMosi = true)) ∧
    (bare.closed = false ∧ (0 : BitCount) ≤ (64 : BitVec 8) ∧ ((0 : BitCount) = 0 ∨ bare.cfg.hasMosi = true)) := by decide

/-- The clauses of RW at counts 65, 64 and 0. -/
theorem witness_RwGathersTheSamples : closedEngine.closed = true ∧ (full.closed = false ∧ 64 < (65 : BitCount).toNat) ∧
    (bare.closed = false ∧ (64 : BitCount).toNat ≤ 64 ∧ (64 : BitCount) ≠ 0 ∧ bare.cfg.hasMiso = false) ∧
    (full.closed = false ∧ (64 : BitCount).toNat ≤ 64 ∧ ((64 : BitCount) = 0 ∨ full.cfg.hasMiso = true) ∧
      63 < (64 : BitCount).toNat) ∧
    (bare.closed = false ∧ (0 : BitCount).toNat ≤ 64 ∧ ((0 : BitCount) = 0 ∨ bare.cfg.hasMiso = true) ∧
      (0 : BitCount).toNat ≤ 0) := by decide

theorem witness_CloseDisposesEveryPresentLineOnce :
    closedEngine.closed = true ∧ bare.closed = false ∧ bare.initDone = true := by decide

theorem witness_ClosedEngineRefusesEveryCommand : closedEngine.closed = true := by decide

/-- The four reserved opcodes, on an open and on a closed engine. -/
theorem witness_ReservedOpcodeAnswersIllegal :
    (Takes (full.present 0x0000000000000000000#76) 0x0000000000000000000#76 ∧ cmdOp 0x0000000000000000000#76 = 0x0) ∧
    (Takes (full.present 0xD000000000000000000#76) 0xD000000000000000000#76 ∧ cmdOp 0xD000000000000000000#76 = 0xD) ∧
    (Takes (full.present 0xE000000000000000000#76) 0xE000000000000000000#76 ∧ cmdOp 0xE000000000000000000#76 = 0xE) ∧
    (Takes (closedEngine.present 0xF0000000000000000FF#76) 0xF0000000000000000FF#76 ∧
      cmdOp 0xF0000000000000000FF#76 = 0xF) := by
  refine ⟨⟨⟨?_, ?_, ?_⟩, ?_⟩, ⟨⟨?_, ?_, ?_⟩, ?_⟩, ⟨⟨?_, ?_, ?_⟩, ?_⟩, ⟨⟨?_, ?_, ?_⟩, ?_⟩⟩ <;> decide

theorem witness_StatusFollowsTheOrderedChecks :
    Takes (bare.present 0x70900000000000000FF#76) 0x70900000000000000FF#76 ∧
    Takes (bare.present 0x70800000000000000FF#76) 0x70800000000000000FF#76 ∧
    Takes (full.present 0x70800000000000000FF#76) 0x70800000000000000FF#76 := by
  refine ⟨⟨?_, ?_, ?_⟩, ⟨?_, ?_, ?_⟩, ⟨?_, ?_, ?_⟩⟩ <;> decide

/-- Both sides of the equivalence, at the edge of the count and on an engine with and without the line. -/
theorem witness_UnsupportedExactlyWhenALineIsAbsent :
    (bare.closed = false ∧ overRange (.ww8 0 8) = false ∧ lacksLine bare.cfg (.ww8 0 8) = true) ∧
    lacksLine bare.cfg (.ww8 0 0) = false ∧ lacksLine full.cfg (.ww8 0 8) = false := by decide

/-- Both sides of the equivalence, at the width and one above it. -/
theorem witness_OutOfRangeExactlyWhenTheCountExceeds :
    (full.closed = false ∧ overRange (.ww32 0 33) = true) ∧ overRange (.ww32 0 32) = false := by decide

/-- An absent line, and a reserved opcode. -/
theorem witness_ErrorsChangeNothingButTheResponse :
    (exec .sel2 bare = .next (Answered bare .unsupported 2) ∧
      (Answered bare .unsupported 2).rsp = some { status := .unsupported, value := 2 } ∧ Status.unsupported ≠ .ok) ∧
    (Takes (full.present 0xE000000000000000000#76) 0xE000000000000000000#76 ∧
      step (full.present 0xE000000000000000000#76) = .next (ask full 0xE000000000000000000#76) ∧
      (ask full 0xE000000000000000000#76).rsp = some { status := .illegal, value := 0 } ∧ Status.illegal ≠ .ok) :=
  ⟨⟨rfl, rfl, by decide⟩, ⟨⟨by decide, by decide, by decide⟩, step_after (by decide), by decide, by decide⟩⟩

theorem witness_TakingACommandLeavesAResponsePending :
    Takes (full.present 0x1000000000000000000#76) 0x1000000000000000000#76 := ⟨by decide, by decide, by decide⟩

/-- An engine with a response waiting, and the host not taking it and taking it. -/
theorem witness_ResponseIsHeldUntilTaken :
    ((withPort (Answered full .ok 1) .low none false).initDone = true ∧
      (withPort (Answered full .ok 1) .low none false).aborting = none ∧
      (withPort (Answered full .ok 1) .low none false).rsp = some { status := .ok, value := 1 } ∧
      (withPort (Answered full .ok 1) .low none false).port.rst = .low ∧
      (withPort (Answered full .ok 1) .low none false).port.rspReady = false) ∧
    (withPort (Answered full .ok 1) .low none true).port.rspReady = true := by decide

theorem witness_StepRunsTheDecodedCommand :
    Takes (full.present 0xB0A0000000000000000#76) 0xB0A0000000000000000#76 ∧
    decode 0xB0A0000000000000000#76 = .instr (.rw 10) := ⟨⟨by decide, by decide, by decide⟩, by decide⟩

theorem witness_ResetDuringACommandCutsItShort :
    (withPort full (.rises 2 straps) (some 0x70800000000000000B4#76) false).cmdReady = true ∧
    (withPort full (.rises 2 straps) (some 0x70800000000000000B4#76) false).port.cmd = some 0x70800000000000000B4#76 ∧
    (withPort full (.rises 2 straps) (some 0x70800000000000000B4#76) false).port.rst = .rises 2 straps := by decide

theorem witness_OpcodeTableSelectsTheCommand :
    ("SEL1", 0x1000000000000000000#76) ∈ opcodeTable ∧ ("CLOSE", 0xC000000000000000000#76) ∈ opcodeTable := by decide

theorem witness_AssemblerRefusesExactlyWhatDoesNotFit :
    (AsmCmd.ww8 255 255).assemble = some (.ww8 255 255) ∧ (AsmCmd.ww8 256 255).assemble = none := by decide

/-- The premises of the four statements about word writes, at full width and with no bits. -/
theorem witness_EndianFixesTheOrderOnTheLine :
    (writeParts (.ww64 0x8000000000000000 64) = some (64, 0x8000000000000000, 64) ∧ full.closed = false ∧
      (64 : BitCount).toNat ≤ 64 ∧ full.cfg.hasMosi = true) ∧
    (writeParts (.ww8 0xFF 0) = some (8, 0xFF, 0) ∧ (0 : BitCount).toNat ≤ 8) := by decide

/-- L1-2: what `WW8 0xF5, 4` put on the line under LE, given to an engine of the same order. -/
theorem witness_ReplayedWordReadsBackModuloPowerOfTwo :
    writeParts (.ww8 0xF5 4) = some (8, 0xF5, 4) ∧ full.closed = false ∧ (4 : BitCount).toNat ≤ 8 ∧ full.cfg.hasMosi = true ∧
    (engine .little true true true [false, true, false, true]).closed = false ∧
    (engine .little true true true [false, true, false, true]).cfg.hasMiso = true ∧
    (engine .little true true true [false, true, false, true]).cfg.endian = full.cfg.endian ∧
    (engine .little true true true [false, true, false, true]).misoIn =
      mosiBits ((ask full 0x70400000000000000F5#76).trace.drop full.trace.length) := by decide

/-- V-IDX, cross-order: the same bits, given to an engine of the other order. -/
theorem witness_ReplayedUnderTheOtherEndianReversesTheBits :
    writeParts (.ww8 0xF5 4) = some (8, 0xF5, 4) ∧ full.closed = false ∧ (4 : BitCount).toNat ≤ 8 ∧ full.cfg.hasMosi = true ∧
    (engine .big true true true [false, true, false, true]).closed = false ∧
    (engine .big true true true [false, true, false, true]).cfg.hasMiso = true ∧
    (engine .big true true true [false, true, false, true]).cfg.endian ≠ full.cfg.endian ∧
    (engine .big true true true [false, true, false, true]).misoIn =
      mosiBits ((ask full 0x70400000000000000F5#76).trace.drop full.trace.length) := by decide

theorem witness_WordWriteEqualsItsBitWrites :
    writeParts (.ww16 0xABCD 12) = some (16, 0xABCD, 12) ∧ full.closed = false ∧ (12 : BitCount).toNat ≤ 16 ∧
    full.cfg.hasMosi = true := by decide

theorem witness_WordReadEqualsItsBitReads :
    (engine .little false false true [true, false]).closed = false ∧ (2 : BitCount).toNat ≤ 64 ∧
    (engine .little false false true [true, false]).cfg.hasMiso = true ∧
    (2 : BitCount).toNat ≤ (engine .little false false true [true, false]).misoIn.length := by decide

theorem witness_RisingEdgesCountTheBitsTransferred :
    exec (.wbit true) full = .next (full.issue (.wbit true)) ∧ (full.issue (.wbit true)).rspStatus = .ok :=
  ⟨exec_issue (by decide), by decide⟩

theorem witness_TransfersLeaveTheChipSelects :
    (Instr.rw 3).isTransfer = true ∧ exec (.rw 3) full = .next (full.issue (.rw 3)) := ⟨by decide, exec_issue (by decide)⟩

theorem witness_TransfersDoNotDependOnTheChipSelects : (Instr.ww32 5 7).isTransfer = true := by decide

theorem witness_OnlyReadsLookAtMiso : readsMiso (.ww32 5 7) = false ∧ readsMiso .close = false := by decide

/-- CLOSE taken by an open engine, and a reset of a closed one. -/
theorem witness_ClosedIsSetByCloseAndClearedByReset :
    (step (full.present 0xC000000000000000000#76) = .next (ask full 0xC000000000000000000#76) ∧ full.closed = false ∧
      (ask full 0xC000000000000000000#76).closed = true) ∧
    (step (withPort closedEngine (.high straps) none false) = .next (after (withPort closedEngine (.high straps) none false)) ∧
      closedEngine.closed = true ∧ (after (withPort closedEngine (.high straps) none false)).closed = false) :=
  ⟨⟨step_after (by decide), by decide, by decide⟩, ⟨step_after (by decide), by decide, by decide⟩⟩

theorem witness_NoEventAfterClose :
    step (closedEngine.present 0x5000000000000000001#76) = .next (ask closedEngine 0x5000000000000000001#76) ∧
    closedEngine.closed = true ∧ closedEngine.initDone = true := ⟨step_after (by decide), by decide, by decide⟩

/-- The invariant holds of an engine that has written three bits, so the statements about it are about something. -/
theorem inv_busy : Inv (full.issue (.ww8 0x06 3)) := by
  refine ⟨⟨false, by decide⟩, by decide, by decide, ?_, by decide⟩
  intro _ l
  cases l <;> decide

/-- The invariant holds of an engine that was closed. -/
theorem inv_closed : Inv closedEngine := by
  refine ⟨⟨false, rfl⟩, by decide, by decide, ?_, by decide⟩
  intro _ l
  cases l <;> decide

/-- The invariant holds of an engine that has read one bit. -/
theorem inv_read : Inv ((engine .little false false true [true]).issue .rbit) := by
  refine ⟨⟨false, by decide⟩, by decide, by decide, ?_, by decide⟩
  intro _ l
  cases l <;> decide

theorem witness_PhaseChangesOnlyByTheNamedCommands :
    Inv closedEngine ∧ step closedEngine = .next (after closedEngine) := ⟨inv_closed, step_after (by decide)⟩

theorem witness_EveryStepKeepsTheInvariant :
    Inv (full.issue (.ww8 0x06 3)) ∧ step (full.issue (.ww8 0x06 3)) = .next (after (full.issue (.ww8 0x06 3))) :=
  ⟨inv_busy, step_after (by decide)⟩

theorem witness_OutputEnableFollowsTheTrace : Inv (full.issue (.ww8 0x06 3)) ∧
    (full.issue (.ww8 0x06 3)).outEnable .mosi = true ∧ closedEngine.outEnable .mosi = false := ⟨inv_busy, by decide, by decide⟩

/-- The last write of MOSI, before its pulse. -/
theorem witness_LevelIsTheLastOneWritten : Inv (full.issue (.ww8 0x06 3)) ∧
    (full.issue (.ww8 0x06 3)).trace =
      (full.issue (.ww8 0x06 3)).trace.take 12 ++ [.write .mosi false] ++ P ∧
    (∀ u, Event.write .mosi u ∉ P) ∧ Event.dispose (toLine .mosi) ∉ P := ⟨inv_busy, by decide, by decide, by decide⟩

/-- SCLK disposed first, CS1 after it. -/
theorem witness_NoEventTouchesADisposedLine : Inv closedEngine ∧
    closedEngine.trace = closedEngine.trace.take 4 ++ [.dispose .sclk] ++ closedEngine.trace.drop 5 ∧
    Event.dispose .cs1 ∈ closedEngine.trace.drop 5 := ⟨inv_closed, by decide, by decide⟩

theorem witness_EveryRisingEdgeHasItsHold :
    Inv (full.issue (.ww8 0x06 3)) ∧ (full.issue (.ww8 0x06 3)).aborting = none ∧
    risingEdges (full.issue (.ww8 0x06 3)).trace = 3 := ⟨inv_busy, by decide, by decide⟩

/-- INIT's MOSI write, with what stands between it and the last write of SCLK. -/
theorem witness_DataMovesOnlyWhileTheClockIsLow_mosi : Inv (full.issue (.ww8 0x06 3)) ∧
    (full.issue (.ww8 0x06 3)).trace =
      List.append [] [Event.write .sclk false] ++ ([Event.write .cs1 true, Event.write .cs2 true] : List Event) ++
        ([Event.write .mosi false] : List Event) ++ (full.issue (.ww8 0x06 3)).trace.drop 4 ∧
    ∀ u, Event.write .sclk u ∉ [Event.write .cs1 true, Event.write .cs2 true] := ⟨inv_busy, by decide, by decide⟩

/-- INIT's write of CS1. -/
theorem witness_DataMovesOnlyWhileTheClockIsLow_cs1 : Inv (full.issue (.ww8 0x06 3)) ∧
    (full.issue (.ww8 0x06 3)).trace =
      List.append [] [Event.write .sclk false] ++ ([] : List Event) ++ ([Event.write .cs1 true] : List Event) ++
        (full.issue (.ww8 0x06 3)).trace.drop 2 ∧
    isCsWrite (.write .cs1 true) = true := ⟨inv_busy, by decide, by decide⟩

/-- A sample after its pulse. -/
theorem witness_DataMovesOnlyWhileTheClockIsLow_miso :
    Inv ((engine .little false false true [true]).issue .rbit) ∧
    ((engine .little false false true [true]).issue .rbit).trace =
      ((engine .little false false true [true]).issue .rbit).trace.take 4 ++ ([Event.write .sclk false] : List Event) ++
        ([] : List Event) ++ ([Event.sample true] : List Event) ++ ([] : List Event) ∧
    isSample (.sample true) = true := ⟨inv_read, by decide, by decide⟩

/-- A body with a command that fails, so that the release comes after an error too. -/
theorem witness_WithScopeReleasesExactlyOnce : (full.closed = false ∧ full.cfg.hasCs2 = true) ∧
    (bare.closed = false ∧ bare.cfg.hasCs2 = false) ∧
    ∀ i, i ∈ [Instr.wbit true, .ww8 0xFF 9, .rw 2] → i.isTransfer = true := by decide

/-- P4, cut inside its first scope, and a sequence whose SEL2 fails. -/
theorem witness_WellScopedSequencesSelectOneSlaveAtATime :
    (full.phase = .idle ∧ wellScoped full.cfg.hasCs2 (([Instr.sel1, .ww16 0x1234 16] : List Instr) ++ ([.rel1, .sel2, .rw 12, .rel2, .close] : List Instr)) = true) ∧
    (bare.phase = .idle ∧ wellScoped bare.cfg.hasCs2 (([.sel2, .sel1] : List Instr) ++ ([.rel1] : List Instr)) = true) := by decide

end Sys2Proof.Tests
end

section
/-! The index function of a word transfer (R70, R71): for fixed `n` it is its own inverse on the indices below `n`, and
that one fact makes it a bijection. -/

namespace Sys2Proof.Machine

@[simp] theorem idx_big (n i : Nat) : idx .big n i = i := rfl

@[simp] theorem idx_little (n i : Nat) : idx .little n i = n - 1 - i := rfl

theorem idx_lt (e : Endian) {n i : Nat} (hi : i < n) : idx e n i < n := by
  cases e with
  | big => exact hi
  | little => rw [idx_little]; omega

theorem idx_idx (e : Endian) {n i : Nat} (hi : i < n) : idx e n (idx e n i) = i := by
  cases e with
  | big => rfl
  | little => simp only [idx_little]; omega

/-- An involution is injective. -/
theorem idx_inj (e : Endian) {n i j : Nat} (hi : i < n) (hj : j < n) (h : idx e n i = idx e n j) : i = j := by
  rw [← idx_idx e hi, h, idx_idx e hj]

/-- An involution is surjective: `idx e n k` is the step at which bit `k` crosses the line. -/
theorem exists_idx_eq (e : Endian) {n k : Nat} (hk : k < n) : ∃ i, i < n ∧ idx e n i = k :=
  ⟨idx e n k, idx_lt e hk, idx_idx e hk⟩

/-- Settles O6: the formulas are the definition's two cases; range and bijection come from `idx` being an involution of
the indices below `n`, for every `n`. -/
theorem indexFunctionIsABijection : Obligations.IndexFunctionIsABijection := by
  refine ⟨idx_big, fun n i _ => idx_little n i, fun e n _ _ => ⟨?_, ?_, ?_⟩⟩
  · exact fun i hi => Nat.le_sub_one_of_lt (idx_lt e hi)
  · exact fun i j hi hj => idx_inj e hi hj
  · exact fun k hk => exists_idx_eq e hk

end Sys2Proof.Machine
end

section
/-! The synchronizer's `pulse()` (R75, R78): what it does to the trace, to SCLK and to the other lines, one lemma each. -/

namespace Sys2Proof.Machine

/-- A pulse appends its events to the trace and replays them on the lines; no other field moves. -/
theorem State.pulse_eq_replay (s : State) :
    s.pulse = { s with
      lines := s.lines.replay (pulseEvents s.holdTicks), trace := s.trace ++ pulseEvents s.holdTicks } := by
  rw [State.pulse_eq, State.emitAll_eq]

@[simp] theorem State.pulse_trace (s : State) : s.pulse.trace = s.trace ++ pulseEvents s.holdTicks := by
  rw [State.pulse_eq_replay]

@[simp] theorem State.pulse_lines (s : State) : s.pulse.lines = s.lines.replay (pulseEvents s.holdTicks) := by
  rw [State.pulse_eq_replay]

/-- The falling edge comes last (R75). -/
theorem State.pulse_drives_sclk_low (s : State) : DrivenTo s.pulse .sclk false := by
  simp [DrivenTo, Lines.out, Lines.replay_pulse_sclk]

/-- `pulse()` touches SCLK only (R78). -/
theorem State.pulse_keeps_other_lines (s : State) : LinesKeptBut [.sclk] s s.pulse := by
  refine ⟨fun l hl => ?_, fun l => ?_⟩
  · rw [State.pulse_lines, Lines.replay_pulse_out _ _ (List.ne_of_not_mem_cons hl)]
  · rw [State.pulse_lines, Lines.replay_pulse_isOpen]

/-- Settles O5: a pulse is its three events emitted in order, and emitting touches the trace and the lines only. -/
theorem pulseAppendsItsThreeEvents : Obligations.PulseAppendsItsThreeEvents := by
  intro s
  refine ⟨s.pulse_trace, s.pulse_drives_sclk_low, s.pulse_keeps_other_lines, ?_⟩
  rw [State.pulse_trace, State.pulse_lines]
  exact s.pulse_eq_replay

end Sys2Proof.Machine
end

section
/-! What the proofs about single commands share: the decoder on a packed word, the two errors of a command without a bit
count, and what a command that succeeds leaves unchanged (R52, R110, R112). -/

namespace Sys2Proof.Machine

/-- A closed engine answers CLOSED to every command (R112). -/
theorem exec_closed {i : Instr} {s : State} (h : s.closed = true) : exec i s = .next (Answered s .closed 0) := by
  rw [exec_error (.inl h), if_pos h]

/-- On an open engine a command whose line is absent answers UNSUPPORTED (R110), its count being in range (R115). -/
theorem exec_unsupported {i : Instr} {s : State} (h0 : s.closed = false) (h1 : overRange i = false)
    (h2 : lacksLine s.cfg i = true) : exec i s = .next (Answered s .unsupported (missingLineId i)) := by
  rw [exec_error (.inr (.inr h2)), if_neg (by simp [h0]), if_neg (by simp [h1])]

/-- No command that succeeds changes what `Kept` names. -/
theorem State.afterCommand_kept (s : State) (i : Instr) (bs : List Level) (k : Nat) : Kept s (s.afterCommand i bs k) :=
  ⟨rfl, rfl, rfl, rfl, rfl, rfl⟩

/-- Only CLOSE sets `closed` (R17). -/
theorem State.afterCommand_closed (s : State) {i : Instr} (hi : i ≠ .close) (bs : List Level) (k : Nat) :
    (s.afterCommand i bs k).closed = s.closed := by
  simp [State.afterCommand, hi]

/-- Bit writes move no line but SCLK and MOSI. -/
theorem linesKeptBut_of_bit_writes {s t : State} {h : Ticks} {bs : List Level}
    (ht : t.lines = s.lines.replay (bs.flatMap (writeBitEvents h))) : LinesKeptBut [.sclk, .mosi] s t := by
  refine ⟨fun l hl => ?_, fun l => ?_⟩
  · simp only [List.mem_cons, List.not_mem_nil, or_false, not_or] at hl
    obtain ⟨hsclk, hmosi⟩ := hl
    rw [ht, Lines.replay_bits_out _ _ _ hsclk hmosi]
  · rw [ht, Lines.replay_bits_isOpen]

/-- Bit reads move no line but SCLK. -/
theorem linesKeptBut_of_bit_reads {s t : State} {h : Ticks} {bs : List Level}
    (ht : t.lines = s.lines.replay (readWordEvents h bs)) : LinesKeptBut [.sclk] s t := by
  refine ⟨fun l hl => ?_, fun l => ?_⟩
  · rw [ht, Lines.replay_reads_out _ _ _ (List.ne_of_not_mem_cons hl)]
  · rw [ht, Lines.replay_reads_isOpen]

end Sys2Proof.Machine
end

section
/-! WBIT and RBIT (R80, R82). -/

namespace Sys2Proof.Machine

theorem decode_packCmd_wbit (n : BitCount) (d : Word) : decode (packCmd 0x5 n d) = .instr (.wbit (d.getLsbD 0)) := by
  simp [decode, cmdOp_packCmd, cmdData_packCmd]

theorem decode_packCmd_rbit (n : BitCount) (d : Word) : decode (packCmd 0x6 n d) = .instr .rbit := by
  simp [decode, cmdOp_packCmd]

/-- WBIT on an open engine with MOSI. -/
theorem exec_wbit_ok {s : State} (b : Level) (h0 : s.closed = false) (hm : s.cfg.hasMosi = true) :
    ∃ k, exec (.wbit b) s = .next (s.afterCommand (.wbit b) [] k) := by
  obtain ⟨bs, k, hlen, -, he⟩ := exec_ok (i := .wbit b) h0 rfl (by simp [lacksLine, hm])
  obtain rfl : bs = [] := List.eq_nil_of_length_eq_zero hlen
  exact ⟨k, he⟩

/-- RBIT on an open engine with MISO takes one sample, the environment's next listed answer if there is one. -/
theorem exec_rbit_ok {s : State} (h0 : s.closed = false) (hm : s.cfg.hasMiso = true) :
    ∃ b k, s.misoIn.take 1 <+: [b] ∧ exec .rbit s = .next (s.afterCommand .rbit [b] k) := by
  obtain ⟨bs, k, hlen, hpre, he⟩ := exec_ok (i := .rbit) h0 rfl (by simp [lacksLine, hm])
  obtain ⟨b, rfl⟩ := List.length_eq_one_iff.mp hlen
  exact ⟨b, k, hpre, he⟩

/-- The events of WBIT as those of a one-bit write, in the form the line lemmas speak of. -/
theorem State.afterCommand_wbit_lines (s : State) (b : Level) (k : Nat) :
    (s.afterCommand (.wbit b) [] k).lines = s.lines.replay (([] ++ [b]).flatMap (writeBitEvents s.holdTicks)) := by
  rw [List.nil_append, List.flatMap_singleton]
  rfl

theorem bitWord_eq_ite (b : Level) : bitWord b = if b then 1 else 0 := by
  cases b <;> rfl

/-- Settles O11: a closed engine and a missing MOSI are the two checks; past them WBIT is a write of the single bit `b`,
data before the pulse. -/
theorem wbitSetsDataThenPulses : Obligations.WbitSetsDataThenPulses := by
  refine ⟨decode_packCmd_wbit, fun b s => ⟨exec_closed, fun h0 hm => ?_, fun h0 hm => ?_⟩⟩
  · exact exec_unsupported h0 rfl (by simp [lacksLine, hm])
  · obtain ⟨k, he⟩ := exec_wbit_ok b h0 hm
    have hlines := s.afterCommand_wbit_lines b k
    obtain ⟨hsclk, hsclk', hmosi, hmosi'⟩ := Lines.replay_bits_last s.lines s.holdTicks [] b
    rw [← hlines] at hsclk hsclk' hmosi hmosi'
    exact ⟨_, he, rfl, rfl, ⟨hmosi, hmosi'⟩, ⟨hsclk, hsclk'⟩, linesKeptBut_of_bit_writes hlines,
      s.afterCommand_kept _ _ _, s.afterCommand_closed (by simp) _ _, rfl⟩

/-- Settles O12: past the two checks RBIT is a read of a single bit `b`, the pulse before the sample; `b` is the one sample
`exec_rbit_ok` names, and the value is `b` zero-extended. -/
theorem rbitPulsesThenSamples : Obligations.RbitPulsesThenSamples := by
  refine ⟨decode_packCmd_rbit, fun s => ⟨exec_closed, fun h0 hm => ?_, fun h0 hm => ?_⟩⟩
  · exact exec_unsupported h0 rfl (by simp [lacksLine, hm])
  · obtain ⟨b, k, hpre, he⟩ := exec_rbit_ok h0 hm
    refine ⟨_, b, he, hpre, rfl, ?_, ?_, linesKeptBut_of_bit_reads (bs := [b]) rfl, s.afterCommand_kept _ _ _,
      s.afterCommand_closed (by simp) _ _, rfl⟩
    · rw [← bitWord_eq_ite b]
      rfl
    · exact Lines.replay_reads_sclk s.lines s.holdTicks (List.cons_ne_nil b [])

end Sys2Proof.Machine
end

section
/-! What the proofs about the word commands share: the bit count's error, and what `writeParts` fixes of a word write: its
checks, its events, its value (R84, R111). -/

namespace Sys2Proof.Machine

/-- On an open engine a word command whose count exceeds its width answers OUT_OF_RANGE (R111), line or no line (R115). -/
theorem exec_outOfRange {i : Instr} {s : State} (h0 : s.closed = false) (h1 : overRange i = true) :
    exec i s = .next (Answered s .outOfRange (overRangeValue i)) := by
  rw [exec_error (.inr (.inl h1)), if_neg (by simp [h0]), if_pos h1]

section WriteParts

/-! Each fact by the case split that `writeParts` itself makes: the hypothesis leaves the four word writes. -/

variable {i : Instr} {k : Nat} {w : Word} {n : BitCount}

theorem overRange_of_writeParts (h : writeParts i = some (k, w, n)) : overRange i = decide (k < n.toNat) := by
  cases i <;> cases h <;> rfl

theorem overRangeValue_of_writeParts (h : writeParts i = some (k, w, n)) :
    overRangeValue i = rangeValue n (BitVec.ofNat 8 k) := by
  cases i <;> cases h <;> rfl

theorem lacksLine_of_writeParts (c : Cfg) (h : writeParts i = some (k, w, n)) :
    lacksLine c i = (!c.hasMosi && n != 0) := by
  cases i <;> cases h <;> rfl

/-- The line a word write lacks is MOSI, whose id is 3 (R110). -/
theorem missingLineId_of_writeParts (h : writeParts i = some (k, w, n)) : missingLineId i = 3 := by
  cases i <;> cases h <;> rfl

/-- What a word write that succeeds leads to: the events of R84, value 0, no sample used up. -/
theorem State.afterCommand_of_writeParts (s : State) (m : Nat) (h : writeParts i = some (k, w, n)) :
    s.afterCommand i [] m = { s with
      lines := s.lines.replay (writeWordEvents s.holdTicks s.cfg.endian w n.toNat)
      trace := s.trace ++ writeWordEvents s.holdTicks s.cfg.endian w n.toNat
      rsp := some { status := .ok, value := 0 }
      dp := staleDataPath m
      fresh := m + 1 } := by
  cases i <;> cases h <;> simp [State.afterCommand, commandEvents, commandValue]

theorem samplesTaken_of_writeParts (h : writeParts i = some (k, w, n)) : samplesTaken i = 0 := by
  cases i <;> cases h <;> rfl

/-- A word write on an open engine, its count in range and MOSI present if there is a bit to send. -/
theorem exec_writeParts_ok {s : State} (h : writeParts i = some (k, w, n)) (h0 : s.closed = false) (h1 : n.toNat ≤ k)
    (h2 : n = 0 ∨ s.cfg.hasMosi = true) : ∃ m, exec i s = .next (s.afterCommand i [] m) := by
  have hrange : overRange i = false := by rw [overRange_of_writeParts h]; simpa using h1
  have hline : lacksLine s.cfg i = false := by
    rw [lacksLine_of_writeParts s.cfg h]
    rcases h2 with rfl | hm
    · simp
    · simp [hm]
  obtain ⟨bs, m, hlen, -, he⟩ := exec_ok h0 hrange hline
  obtain rfl : bs = [] := List.eq_nil_of_length_eq_zero (hlen.trans (samplesTaken_of_writeParts h))
  exact ⟨m, he⟩

end WriteParts

/-- The last bit a nonempty write sends is that of its last step (R72). -/
theorem sentBits_eq_append_last (e : Endian) (w : Word) {n : Nat} (hn : n ≠ 0) :
    ∃ bs, sentBits e w n = bs ++ [w.getLsbD (idx e n (n - 1))] := by
  obtain ⟨m, rfl⟩ := Nat.exists_eq_succ_of_ne_zero hn
  exact ⟨(List.range m).map fun j => w.getLsbD (idx e (m + 1) j), by simp [sentBits, List.range_succ]⟩

/-- After a nonempty word write SCLK is driven low and MOSI stands at the last bit sent. -/
theorem drivenTo_of_word_write {s t : State} {h : Ticks} {e : Endian} {w : Word} {n : Nat} (hn : n ≠ 0)
    (ht : t.lines = s.lines.replay (writeWordEvents h e w n)) :
    DrivenTo t .sclk false ∧ DrivenTo t .mosi (w.getLsbD (idx e n (n - 1))) := by
  obtain ⟨bs, hbs⟩ := sentBits_eq_append_last e w hn
  rw [writeWordEvents, hbs] at ht
  obtain ⟨hsclk, hsclk', hmosi, hmosi'⟩ :=
    Lines.replay_bits_last s.lines h bs (w.getLsbD (idx e n (n - 1)))
  rw [← ht] at hsclk hsclk' hmosi hmosi'
  exact ⟨⟨hsclk, hsclk'⟩, ⟨hmosi, hmosi'⟩⟩

end Sys2Proof.Machine
end

section
/-! WW8, WW16, WW32 and WW64 (R85 to R88): one argument for every word write, given by its `writeParts`. -/

namespace Sys2Proof.Machine

/-- Every word write does what R84 says: its checks are those of R115 at its width, and past them it sends its bits. -/
theorem writesWord_of_writeParts {i : Instr} {width : BitVec 8} {w : Word} {n : BitCount}
    (h : writeParts i = some (width.toNat, w, n)) (s : State) : WritesWord i width w n s := by
  refine ⟨exec_closed, fun h0 hn => ?_, fun h0 hn hz hm => ?_, fun h0 hn hm => ?_⟩
  · have hrange : overRange i = true := by rw [overRange_of_writeParts h]; exact decide_eq_true hn
    rw [exec_outOfRange h0 hrange, overRangeValue_of_writeParts h, BitVec.ofNat_toNat, BitVec.setWidth_eq]
  · have hrange : overRange i = false := by rw [overRange_of_writeParts h]; exact decide_eq_false (Nat.not_lt.mpr hn)
    rw [exec_unsupported h0 hrange (by simpa [lacksLine_of_writeParts s.cfg h, hm] using hz), missingLineId_of_writeParts h]
  · obtain ⟨m, he⟩ := exec_writeParts_ok h h0 hn hm
    rw [State.afterCommand_of_writeParts s m h] at he
    refine ⟨_, he, rfl, rfl, linesKeptBut_of_bit_writes rfl, ⟨rfl, rfl, rfl, rfl, rfl, rfl⟩, rfl, rfl, ?_, fun hz => ?_⟩
    · rintro rfl
      rfl
    · exact drivenTo_of_word_write (BitVec.toNat_ne.mp hz) rfl

theorem decode_packCmd_ww8 (n : BitCount) (d : Word) : decode (packCmd 0x7 n d) = .instr (.ww8 (d.setWidth 8) n) := by
  simp [decode, cmdOp_packCmd, cmdN_packCmd, cmdData_packCmd, BitVec.setWidth_eq_extractLsb']

theorem decode_packCmd_ww16 (n : BitCount) (d : Word) : decode (packCmd 0x8 n d) = .instr (.ww16 (d.setWidth 16) n) := by
  simp [decode, cmdOp_packCmd, cmdN_packCmd, cmdData_packCmd, BitVec.setWidth_eq_extractLsb']

theorem decode_packCmd_ww32 (n : BitCount) (d : Word) : decode (packCmd 0x9 n d) = .instr (.ww32 (d.setWidth 32) n) := by
  simp [decode, cmdOp_packCmd, cmdN_packCmd, cmdData_packCmd, BitVec.setWidth_eq_extractLsb']

theorem decode_packCmd_ww64 (n : BitCount) (d : Word) : decode (packCmd 0xA n d) = .instr (.ww64 d n) := by
  simp [decode, cmdOp_packCmd, cmdN_packCmd, cmdData_packCmd]

/-- Settles O13: WW8 is the word write of width 8. -/
theorem ww8SendsTheLowBits : Obligations.Ww8SendsTheLowBits :=
  ⟨decode_packCmd_ww8, fun _ _ => writesWord_of_writeParts rfl⟩

/-- Settles O14: WW16 is the word write of width 16. -/
theorem ww16SendsTheLowBits : Obligations.Ww16SendsTheLowBits :=
  ⟨decode_packCmd_ww16, fun _ _ => writesWord_of_writeParts rfl⟩

/-- Settles O15: WW32 is the word write of width 32. -/
theorem ww32SendsTheLowBits : Obligations.Ww32SendsTheLowBits :=
  ⟨decode_packCmd_ww32, fun _ _ => writesWord_of_writeParts rfl⟩

/-- Settles O16: WW64 is the word write of width 64. -/
theorem ww64SendsTheLowBits : Obligations.Ww64SendsTheLowBits :=
  ⟨decode_packCmd_ww64, fun _ _ => writesWord_of_writeParts rfl⟩

end Sys2Proof.Machine
end

section
/-! RW (R89): past its checks it is a gathering of samples (R73). -/

namespace Sys2Proof.Machine

theorem decode_packCmd_rw (n : BitCount) (d : Word) : decode (packCmd 0xB n d) = .instr (.rw n) := by
  simp [decode, cmdOp_packCmd, cmdN_packCmd]

/-- RW on an open engine, its count in range and MISO present if there is a bit to read: `n` samples, the environment's
listed answers first. -/
theorem exec_rw_ok {s : State} {n : BitCount} (h0 : s.closed = false) (h1 : n.toNat ≤ 64)
    (h2 : n = 0 ∨ s.cfg.hasMiso = true) :
    ∃ bs k, bs.length = n.toNat ∧ s.misoIn.take n.toNat <+: bs ∧
      exec (.rw n) s = .next (s.afterCommand (.rw n) bs k) := by
  have hline : lacksLine s.cfg (.rw n) = false := by
    rcases h2 with rfl | hm
    · simp [lacksLine]
    · simp [lacksLine, hm]
  obtain ⟨bs, k, (hlen : bs.length = n.toNat), hpre, he⟩ :=
    exec_ok (i := .rw n) h0 (decide_eq_false (Nat.not_lt.mpr h1)) hline
  exact ⟨bs, k, hlen, hlen ▸ hpre, he⟩

/-- `n` samples gathered from step 0: sample `i` stands at bit `idx(n, i)` (R73). -/
theorem gather_zero_bit (e : Endian) {n : Nat} {bs : List Level} (hn : n ≤ 64) (hlen : bs.length = n) {i : Nat}
    (hi : i < n) : (gather e n 0 0 bs).getLsbD (idx e n i) = bs.getD i false := by
  rw [gather_bit e n 0 0 bs hn (by omega) i hi]
  simp

/-- `n` samples gathered from step 0: zeros from bit `n` on (R73). -/
theorem gather_zero_high (e : Endian) {n : Nat} {bs : List Level} (hlen : bs.length = n) {j : Nat} (hj : n ≤ j) :
    (gather e n 0 0 bs).getLsbD j = false := by
  rw [gather_high e n 0 0 bs j hj (by omega)]
  exact BitVec.getLsbD_zero

/-- Settles O17: the three checks as for a write, with MISO for MOSI; past them the value is the samples gathered from an
empty accumulator. -/
theorem rwGathersTheSamples : Obligations.RwGathersTheSamples := by
  refine ⟨decode_packCmd_rw, fun n s => ⟨exec_closed, fun h0 hn => ?_, fun h0 hn hz hm => ?_, fun h0 hn hm => ?_⟩⟩
  · exact exec_outOfRange h0 (decide_eq_true hn)
  · exact exec_unsupported h0 (decide_eq_false (Nat.not_lt.mpr hn)) (by simpa [lacksLine, hm] using hz)
  · obtain ⟨bs, k, hlen, hpre, he⟩ := exec_rw_ok h0 hn hm
    refine ⟨_, bs, gather s.cfg.endian n.toNat 0 0 bs, he, hlen, hpre, rfl, rfl, fun i hi => gather_zero_bit _ hn hlen hi,
      fun j hj => gather_zero_high _ hlen hj, linesKeptBut_of_bit_reads rfl, s.afterCommand_kept _ _ _,
      s.afterCommand_closed (by simp) _ _, congrArg (s.misoIn.drop ·) hlen, ?_, fun hz => ?_⟩
    · rintro rfl
      obtain rfl : bs = [] := List.eq_nil_of_length_eq_zero hlen
      rfl
    · have hbs : bs ≠ [] := List.ne_nil_of_length_pos (by rw [hlen]; exact Nat.pos_of_ne_zero (BitVec.toNat_ne.mp hz))
      exact Lines.replay_reads_sclk s.lines s.holdTicks hbs

end Sys2Proof.Machine
end

section
/-! SEL1, SEL2, REL1 and REL2 (R95 to R98): each is one write of one chip-select line, so one argument serves the four. The
phase afterwards is read off the two chip-select levels (R14). -/

namespace Sys2Proof.Machine

theorem decode_packCmd_sel1 (n : BitCount) (d : Word) : decode (packCmd 0x1 n d) = .instr .sel1 := by
  simp [decode, cmdOp_packCmd]

theorem decode_packCmd_sel2 (n : BitCount) (d : Word) : decode (packCmd 0x2 n d) = .instr .sel2 := by
  simp [decode, cmdOp_packCmd]

theorem decode_packCmd_rel1 (n : BitCount) (d : Word) : decode (packCmd 0x3 n d) = .instr .rel1 := by
  simp [decode, cmdOp_packCmd]

theorem decode_packCmd_rel2 (n : BitCount) (d : Word) : decode (packCmd 0x4 n d) = .instr .rel2 := by
  simp [decode, cmdOp_packCmd]

/-- The phase that the chip-select levels give an engine that is neither before INIT nor closed (R14). -/
def chipSelectPhase (c : Cfg) (ln : Lines) : Phase :=
  if ln.cs1.level = false ∨ (c.hasCs2 = true ∧ ln.cs2.level = false) then .selected else .idle

theorem State.phase_eq_chipSelectPhase {s : State} (hi : s.initDone = true) (h0 : s.closed = false) :
    s.phase = chipSelectPhase s.cfg s.lines := by
  simp [State.phase, chipSelectPhase, hi, h0]

theorem chipSelectPhase_cs1_low (c : Cfg) (ln : Lines) : chipSelectPhase c (ln.apply (.write .cs1 false)) = .selected :=
  if_pos (.inl rfl)

theorem chipSelectPhase_cs2_low {c : Cfg} (hc : c.hasCs2 = true) (ln : Lines) :
    chipSelectPhase c (ln.apply (.write .cs2 false)) = .selected :=
  if_pos (.inr ⟨hc, rfl⟩)

/-- With CS1 high only CS2 can keep the engine in Selected. -/
theorem chipSelectPhase_cs1_high (c : Cfg) (ln : Lines) : chipSelectPhase c (ln.apply (.write .cs1 true)) =
    if c.hasCs2 = true ∧ ln.cs2.level = false then .selected else .idle :=
  if_congr (or_iff_right fun h => nomatch h) rfl rfl

/-- With CS2 high only CS1 can keep the engine in Selected. -/
theorem chipSelectPhase_cs2_high (c : Cfg) (ln : Lines) : chipSelectPhase c (ln.apply (.write .cs2 true)) =
    if ln.cs1.level = false then .selected else .idle :=
  if_congr (or_iff_left fun h => nomatch h.2) rfl rfl

/-- The line a chip-select command writes, the level, and the value it returns; nothing for the other commands. -/
def chipSelectParts : Instr → Option (OutLine × Level × Word)
  | .sel1 => some (.cs1, false, 1)
  | .sel2 => some (.cs2, false, 2)
  | .rel1 => some (.cs1, true, 0)
  | .rel2 => some (.cs2, true, 0)
  | .wbit _ | .rbit | .ww8 _ _ | .ww16 _ _ | .ww32 _ _ | .ww64 _ _ | .rw _ | .close => none

/-- A chip-select command on an open engine that has the line: one write of the line, the value, and no sample. -/
theorem exec_chipSelectParts_ok {i : Instr} {l : OutLine} {v : Level} {r : Word} {s : State}
    (h : chipSelectParts i = some (l, v, r)) (h0 : s.closed = false) (h1 : lacksLine s.cfg i = false) :
    ∃ k, exec i s = .next { s with
      lines := s.lines.apply (.write l v)
      trace := s.trace ++ [.write l v]
      rsp := some { status := .ok, value := r }
      dp := staleDataPath k
      fresh := k + 1 } := by
  have hrange : overRange i = false := by cases i <;> cases h <;> rfl
  have hsamples : samplesTaken i = 0 := by cases i <;> cases h <;> rfl
  obtain ⟨bs, k, hlen, -, he⟩ := exec_ok h0 hrange h1
  obtain rfl : bs = [] := List.eq_nil_of_length_eq_zero (hlen.trans hsamples)
  refine ⟨k, he.trans ?_⟩
  cases i <;> cases h <;> simp [State.afterCommand, commandEvents, commandValue]

/-- Such a command drives its line and does nothing else (R95 to R98). -/
theorem drivesOnly_of_chipSelectParts {i : Instr} {l : OutLine} {v : Level} {r : Word} {ph : Phase} {s : State}
    (h : chipSelectParts i = some (l, v, r)) (h0 : s.closed = false) (h1 : lacksLine s.cfg i = false)
    (hph : chipSelectPhase s.cfg (s.lines.apply (.write l v)) = ph) : DrivesOnly i l v r ph s := by
  obtain ⟨k, he⟩ := exec_chipSelectParts_ok h h0 h1
  refine ⟨_, he, rfl, rfl, ?_, ⟨fun m hm => ?_, fun m => ?_⟩, ⟨rfl, rfl, rfl, rfl, rfl, rfl⟩, rfl, rfl, fun hi => ?_⟩
  · simp [DrivenTo]
  · exact Lines.apply_write_out_ne _ v (List.ne_of_not_mem_cons hm)
  · exact Lines.apply_write_isOpen _ l v m
  · exact Eq.trans (State.phase_eq_chipSelectPhase (by exact hi) (by exact h0)) hph

/-- Settles O7: CS1 is always present, so past the check of `closed` SEL1 drives it low. -/
theorem sel1AssertsChipSelectOne : Obligations.Sel1AssertsChipSelectOne :=
  ⟨decode_packCmd_sel1, fun s => ⟨exec_closed, fun h0 =>
    drivesOnly_of_chipSelectParts rfl h0 rfl (chipSelectPhase_cs1_low s.cfg s.lines)⟩⟩

/-- Settles O8: the two checks, and past them SEL2 drives CS2 low. -/
theorem sel2AssertsChipSelectTwo : Obligations.Sel2AssertsChipSelectTwo := by
  refine ⟨decode_packCmd_sel2, fun s => ⟨exec_closed, fun h0 hc => ?_, fun h0 hc => ?_⟩⟩
  · exact exec_unsupported h0 rfl (by simp [lacksLine, hc])
  · exact drivesOnly_of_chipSelectParts rfl h0 (by simp [lacksLine, hc]) (chipSelectPhase_cs2_low hc s.lines)

/-- Settles O9: REL1 drives CS1 high whatever its level was, and CS2 decides the phase. -/
theorem rel1DeassertsChipSelectOne : Obligations.Rel1DeassertsChipSelectOne :=
  ⟨decode_packCmd_rel1, fun s => ⟨exec_closed, fun h0 =>
    drivesOnly_of_chipSelectParts rfl h0 rfl (chipSelectPhase_cs1_high s.cfg s.lines)⟩⟩

/-- Settles O10: the two checks, and past them REL2 drives CS2 high, and CS1 decides the phase. -/
theorem rel2DeassertsChipSelectTwo : Obligations.Rel2DeassertsChipSelectTwo := by
  refine ⟨decode_packCmd_rel2, fun s => ⟨exec_closed, fun h0 hc => ?_, fun h0 hc => ?_⟩⟩
  · exact exec_unsupported h0 rfl (by simp [lacksLine, hc])
  · exact drivesOnly_of_chipSelectParts rfl h0 (by simp [lacksLine, hc]) (chipSelectPhase_cs2_high s.cfg s.lines)

end Sys2Proof.Machine
end

section
/-! CLOSE (R105): its events name exactly the present lines, so its replay closes exactly those. -/

namespace Sys2Proof.Machine

theorem decode_packCmd_close (n : BitCount) (d : Word) : decode (packCmd 0xC n d) = .instr .close := by
  simp [decode, cmdOp_packCmd]

/-- CLOSE disposes a line exactly when it is present (R105). -/
theorem dispose_mem_closeEvents (c : Cfg) (l : Line) : Event.dispose l ∈ closeEvents c ↔ c.present l = true := by
  cases l <;> simp [closeEvents, Cfg.present]

/-- CLOSE shuts the present lines and leaves the open bit of an absent one. -/
theorem Lines.replay_closeEvents_isOpen (ln : Lines) (c : Cfg) (l : Line) :
    (ln.replay (closeEvents c)).isOpen l = (ln.isOpen l && !c.present l) := by
  simp [Lines.replay_isOpen, dispose_mem_closeEvents]

/-- A line that is not both present and open has output enable 0 (R22). -/
theorem State.outEnable_eq_false {s : State} {l : OutLine}
    (h : s.cfg.present (toLine l) = true → s.lines.isOpen (toLine l) = false) : s.outEnable l = false := by
  rw [State.outEnable, ← Lines.isOpen_toLine]
  cases hp : s.cfg.present (toLine l) with
  | false => rfl
  | true => rw [h hp]; rfl

/-- CLOSE on an open engine passes every check and takes no sample. -/
theorem exec_close_ok {s : State} (h0 : s.closed = false) : ∃ k, exec .close s = .next (s.afterCommand .close [] k) := by
  obtain ⟨bs, k, hlen, -, he⟩ := exec_ok (i := .close) h0 rfl rfl
  obtain rfl : bs = [] := List.eq_nil_of_length_eq_zero hlen
  exact ⟨k, he⟩

theorem State.afterCommand_close_closed (s : State) (bs : List Level) (k : Nat) :
    (s.afterCommand .close bs k).closed = true := by
  simp [State.afterCommand]

theorem State.phase_closed {s : State} (hi : s.initDone = true) (h : s.closed = true) : s.phase = .closed := by
  simp [State.phase, hi, h]

/-- Settles O18: a closed engine is the one check; past it the events of CLOSE shut every present line, which clears every
output enable, and `closed` decides the phase. -/
theorem closeDisposesEveryPresentLineOnce : Obligations.CloseDisposesEveryPresentLineOnce := by
  refine ⟨decode_packCmd_close, fun s => ⟨exec_closed, fun h0 => ?_⟩⟩
  obtain ⟨k, he⟩ := exec_close_ok h0
  have hclosed := s.afterCommand_close_closed [] k
  have hopen : ∀ l, (s.afterCommand .close [] k).lines.isOpen l = (s.lines.isOpen l && !s.cfg.present l) :=
    s.lines.replay_closeEvents_isOpen s.cfg
  refine ⟨_, he, rfl, rfl, hclosed, hopen, fun l => ?_, fun hi => ?_, s.afterCommand_kept _ _ _, rfl⟩
  · refine State.outEnable_eq_false fun (hp : s.cfg.present (toLine l) = true) => ?_
    rw [hopen, hp, Bool.not_true, Bool.and_false]
  · exact State.phase_closed hi hclosed

end Sys2Proof.Machine
end

section
/-! The errors (R110 to R115): the status the checks decide on, and that an error is a response and nothing else. -/

namespace Sys2Proof.Machine

/-- The status that the checks 2 to 4 of R115 decide on, the first that fails first. -/
def State.checkedStatus (s : State) (i : Instr) : Status :=
  if s.closed then .closed
  else if overRange i then .outOfRange
  else if lacksLine s.cfg i then .unsupported
  else .ok

/-- The value of a command's error response (R110 to R113). -/
def errorValue (i : Instr) : Status → Word
  | .outOfRange => overRangeValue i
  | .unsupported => missingLineId i
  | .ok | .closed | .illegal => 0

theorem State.checkedStatus_eq_unsupported_iff (s : State) (i : Instr) :
    s.checkedStatus i = .unsupported ↔ s.closed = false ∧ overRange i = false ∧ lacksLine s.cfg i = true := by
  rw [State.checkedStatus]
  split_ifs <;> simp [*]

theorem State.checkedStatus_eq_outOfRange_iff (s : State) (i : Instr) :
    s.checkedStatus i = .outOfRange ↔ s.closed = false ∧ overRange i = true := by
  rw [State.checkedStatus]
  split_ifs <;> simp [*]

/-- Every command answers one response with the status of its checks; an error leads to the state before with that
response put in. -/
theorem exec_checkedStatus (i : Instr) (s : State) :
    ∃ (t : State) (r : Response), exec i s = .next t ∧ t.rsp = some r ∧ r.status = s.checkedStatus i ∧
      (r.status ≠ .ok → r.value = errorValue i r.status ∧ t = { s with rsp := some r }) := by
  rcases Bool.eq_false_or_eq_true s.closed with h0 | h0
  · exact ⟨_, _, exec_closed h0, rfl, by simp [State.checkedStatus, h0], fun _ => ⟨rfl, rfl⟩⟩
  rcases Bool.eq_false_or_eq_true (overRange i) with h1 | h1
  · exact ⟨_, _, exec_outOfRange h0 h1, rfl, by simp [State.checkedStatus, h0, h1], fun _ => ⟨rfl, rfl⟩⟩
  rcases Bool.eq_false_or_eq_true (lacksLine s.cfg i) with h2 | h2
  · exact ⟨_, _, exec_unsupported h0 h1 h2, rfl, by simp [State.checkedStatus, h0, h1, h2], fun _ => ⟨rfl, rfl⟩⟩
  · obtain ⟨bs, k, -, -, he⟩ := exec_ok h0 h1 h2
    exact ⟨_, _, he, rfl, by simp [State.checkedStatus, h0, h1, h2], fun hr => absurd rfl hr⟩

/-- A command that ends in an error changes the response only (R114). -/
theorem exec_eq_of_error {i : Instr} {s t : State} {r : Response} (h : exec i s = .next t) (hrsp : t.rsp = some r)
    (hr : r.status ≠ .ok) : t = { s with rsp := some r } := by
  obtain ⟨t', r', he, hrsp', -, herror⟩ := exec_checkedStatus i s
  cases he.symm.trans h
  cases hrsp'.symm.trans hrsp
  exact (herror hr).2

theorem runWord_instr {w : CmdWord} {i : Instr} (h : decode w = .instr i) (s : State) : s.runWord w = exec i s := by
  rw [State.runWord, h]

/-- A reserved opcode answers ILLEGAL, the state otherwise as it was (R113). -/
theorem runWord_reserved {w : CmdWord} {op : BitVec 4} (h : decode w = .reserved op) (s : State) :
    s.runWord w = .next (Answered s .illegal 0) := by
  rw [State.runWord, h]
  rfl

/-- A command word that ends in an error, a reserved one included, changes the response only (R114). -/
theorem runWord_eq_of_error {w : CmdWord} {s t : State} {r : Response} (h : s.runWord w = .next t)
    (hrsp : t.rsp = some r) (hr : r.status ≠ .ok) : t = { s with rsp := some r } := by
  cases hw : decode w with
  | instr i => exact exec_eq_of_error ((runWord_instr hw s).symm.trans h) hrsp hr
  | reserved op =>
    cases (runWord_reserved hw s).symm.trans h
    cases hrsp
    rfl

/-- The decoder refuses the four reserved opcodes (R55). -/
theorem decode_of_reserved_opcode {w : CmdWord} (h : cmdOp w = 0x0 ∨ cmdOp w = 0xD ∨ cmdOp w = 0xE ∨ cmdOp w = 0xF) :
    decode w = .reserved (cmdOp w) := by
  rcases h with h | h | h | h <;> simp [decode, h]

/-- Settles O21: check 1 is the decoder's, the others are those of the command. -/
theorem statusFollowsTheOrderedChecks : Obligations.StatusFollowsTheOrderedChecks := by
  intro s w htakes
  rw [step_of_takes htakes]
  cases hw : decode w with
  | reserved op => exact ⟨_, _, runWord_reserved hw _, rfl, rfl⟩
  | instr i =>
    obtain ⟨t, r, he, hrsp, hstatus, -⟩ := exec_checkedStatus i s.popInput
    exact ⟨t, r, (runWord_instr hw _).trans he, hrsp, hstatus⟩

/-- Settles O22: UNSUPPORTED is the last of the checks, so the ones before it have passed. -/
theorem unsupportedExactlyWhenALineIsAbsent : Obligations.UnsupportedExactlyWhenALineIsAbsent := by
  intro i s
  obtain ⟨t, r, he, hrsp, hstatus, herror⟩ := exec_checkedStatus i s
  refine ⟨t, r, he, hrsp, hstatus ▸ s.checkedStatus_eq_unsupported_iff i, fun hr => ?_⟩
  obtain ⟨hvalue, rfl⟩ := herror (by simp [hr])
  exact ⟨by rw [hvalue, hr, errorValue], rfl, rfl⟩

/-- Settles O23: the count is looked at right after `closed`. -/
theorem outOfRangeExactlyWhenTheCountExceeds : Obligations.OutOfRangeExactlyWhenTheCountExceeds := by
  intro i s
  obtain ⟨t, r, he, hrsp, hstatus, herror⟩ := exec_checkedStatus i s
  refine ⟨t, r, he, hrsp, hstatus ▸ s.checkedStatus_eq_outOfRange_iff i, fun hr => ?_⟩
  obtain ⟨hvalue, rfl⟩ := herror (by simp [hr])
  exact ⟨by rw [hvalue, hr, errorValue], rfl, rfl⟩

/-- Settles O24: for a step, the word runs on the state with the input used up. -/
theorem errorsChangeNothingButTheResponse : Obligations.ErrorsChangeNothingButTheResponse :=
  ⟨fun _ _ _ _ => exec_eq_of_error,
    fun _ _ _ _ htakes h => runWord_eq_of_error ((step_of_takes htakes).symm.trans h)⟩

/-- Settles O19: `closed` is the first check of every command. -/
theorem closedEngineRefusesEveryCommand : Obligations.ClosedEngineRefusesEveryCommand :=
  fun _ _ => exec_closed

/-- Settles O20: the decoder refuses the word before `closed` is looked at. -/
theorem reservedOpcodeAnswersIllegal : Obligations.ReservedOpcodeAnswersIllegal := by
  intro s w htakes hop
  rw [step_of_takes htakes]
  exact runWord_reserved (decode_of_reserved_opcode hop) s.popInput

end Sys2Proof.Machine
end

section
/-! INIT (R131): the step that runs it, and what its events leave on the lines. -/

namespace Sys2Proof.Machine

/-- Before INIT, with no reset, the step is INIT whatever command the host presents (R131). -/
theorem step_of_unborn {s : State} (hi : s.initDone = false) (ha : s.aborting = none) (hr : s.port.rst = .low) :
    step s = .next s.popInput.runInit := by
  simp [step, State.clocked, ha, hr, State.advance, hi]

/-- INIT appends its events to the trace, replays them on the lines and is then done; no other field moves. -/
theorem State.runInit_eq_replay (s : State) :
    s.runInit = { s with
      lines := s.lines.replay (initEvents s.cfg), trace := s.trace ++ initEvents s.cfg, initDone := true } := by
  rw [State.runInit_eq, State.emitAll_eq]

/-- The level INIT writes on an output line: high on a chip-select, low on the clock and on the data line (R131). -/
def idleLevel : OutLine → Level
  | .sclk | .mosi => false
  | .cs1 | .cs2 => true

/-- INIT writes exactly the present output lines, each to its idle level (R131). -/
theorem write_mem_initEvents (c : Cfg) (l : OutLine) (v : Level) :
    Event.write l v ∈ initEvents c ↔ c.present (toLine l) = true ∧ v = idleLevel l := by
  cases l <;> simp [initEvents, Cfg.present, toLine, idleLevel]

/-- INIT disposes no line. -/
theorem dispose_not_mem_initEvents (c : Cfg) (l : Line) : Event.dispose l ∉ initEvents c := by
  simp [initEvents]

/-- An output line that a list of events writes with one level only, and does not dispose, ends at that level if the list
writes it at all. -/
theorem Lines.replay_out_of_writes (ln : Lines) (es : List Event) {l : OutLine} {v : Level}
    (hw : ∀ u, Event.write l u ∈ es → u = v) (hd : Event.dispose (toLine l) ∉ es) :
    (ln.replay es).out l =
      if Event.write l v ∈ es then { ln.out l with level := v, driven := true } else ln.out l := by
  induction es generalizing ln with
  | nil => simp
  | cons e es ih =>
    rw [Lines.replay_cons, ih _ (fun u hu => hw u (List.mem_cons_of_mem _ hu)) (mt (List.mem_cons_of_mem _) hd)]
    cases e with
    | write o u =>
      by_cases ho : l = o
      · subst ho
        obtain rfl : u = v := hw u List.mem_cons_self
        simp
      · simp [ho, Lines.apply_write_out_ne _ _ ho]
    | sample b => simp
    | hold t => simp
    | dispose m =>
      have hm : m ≠ toLine l := by rintro rfl; exact hd List.mem_cons_self
      simp [Lines.apply_dispose_out_ne _ hm]

/-- INIT drives every present output line to its idle level and leaves an absent one. -/
theorem Lines.replay_initEvents_out (ln : Lines) (c : Cfg) (l : OutLine) :
    (ln.replay (initEvents c)).out l =
      if c.present (toLine l) then { ln.out l with level := idleLevel l, driven := true } else ln.out l := by
  rw [Lines.replay_out_of_writes ln _ (fun u hu => ((write_mem_initEvents c l u).mp hu).2)
    (dispose_not_mem_initEvents c _)]
  simp [write_mem_initEvents]

/-- INIT leaves every open bit. -/
theorem Lines.replay_initEvents_isOpen (ln : Lines) (c : Cfg) (l : Line) :
    (ln.replay (initEvents c)).isOpen l = ln.isOpen l := by
  simp [Lines.replay_isOpen, dispose_not_mem_initEvents]

/-- A present output line stands at its idle level after INIT. -/
theorem drivenTo_idleLevel {t : State} {ln : Lines} {c : Cfg} {l : OutLine} (ht : t.lines = ln.replay (initEvents c))
    (hp : c.present (toLine l) = true) : DrivenTo t l (idleLevel l) := by
  rw [DrivenTo, ht, Lines.replay_initEvents_out, if_pos hp]
  exact ⟨rfl, rfl⟩

/-- INIT does not touch an absent output line. -/
theorem Lines.replay_initEvents_out_absent (ln : Lines) {c : Cfg} {l : OutLine} (hp : c.present (toLine l) = false) :
    (ln.replay (initEvents c)).out l = ln.out l := by
  rw [Lines.replay_initEvents_out, if_neg (by simp [hp])]

/-- No chip-select is active after INIT: CS1 is high, and CS2 is high or absent. -/
theorem phase_idle_of_init {t : State} {ln : Lines} (ht : t.lines = ln.replay (initEvents t.cfg))
    (hi : t.initDone = true) (h0 : t.closed = false) : t.phase = .idle := by
  have hcs1 : t.lines.cs1.level = true := (drivenTo_idleLevel (l := .cs1) ht rfl).1
  have hcs2 : t.cfg.hasCs2 = true → t.lines.cs2.level = true := fun hc => (drivenTo_idleLevel (l := .cs2) ht hc).1
  rw [State.phase_eq_chipSelectPhase hi h0]
  exact if_neg (by simpa [hcs1] using hcs2)

/-- Settles O3: the step is INIT, which replays its events on the lines and sets `initDone`; its events drive each present
line idle and touch no other, and the idle chip-selects decide the phase. -/
theorem initDrivesTheLinesIdle : Obligations.InitDrivesTheLinesIdle := by
  intro s hi ha h0 hr
  refine ⟨_, step_of_unborn hi ha hr, ?_⟩
  rw [State.runInit_eq_replay]
  exact ⟨rfl, drivenTo_idleLevel (l := .sclk) rfl rfl, drivenTo_idleLevel (l := .cs1) rfl rfl,
    drivenTo_idleLevel (l := .cs2) rfl, drivenTo_idleLevel (l := .mosi) rfl,
    s.lines.replay_initEvents_out_absent (l := .cs2), s.lines.replay_initEvents_out_absent (l := .mosi),
    s.lines.replay_initEvents_isOpen s.cfg, h0, rfl, phase_idle_of_init rfl rfl h0, rfl, rfl, rfl, rfl, rfl⟩

end Sys2Proof.Machine
end

section
/-! The encoding (R50 to R55, R60): a command word is read by its opcode, and every command is the reading of its own
word. -/

namespace Sys2Proof.Machine

/-- A narrow operand comes back from the zero-extension that `encode` puts in the `data` field. -/
theorem setWidth_setWidth_64 {k : Nat} (hk : k ≤ 64) (w : BitVec k) : (w.setWidth 64).setWidth k = w := by
  rw [BitVec.setWidth_setWidth_of_le w hk, BitVec.setWidth_eq]

/-- Settles O32: the decoder's arm for the opcode of `i` takes the operands back from the fields where `encode` put them. -/
theorem decodeOfEncodeGivesTheCommandBack : Obligations.DecodeOfEncodeGivesTheCommandBack := by
  intro i
  cases i with
  | sel1 => exact decode_packCmd_sel1 _ _
  | sel2 => exact decode_packCmd_sel2 _ _
  | rel1 => exact decode_packCmd_rel1 _ _
  | rel2 => exact decode_packCmd_rel2 _ _
  | wbit b => exact (decode_packCmd_wbit _ _).trans (by cases b <;> rfl)
  | rbit => exact decode_packCmd_rbit _ _
  | ww8 w n => exact (decode_packCmd_ww8 _ _).trans (by rw [Instr.dataField, setWidth_setWidth_64 (by decide)]; rfl)
  | ww16 w n => exact (decode_packCmd_ww16 _ _).trans (by rw [Instr.dataField, setWidth_setWidth_64 (by decide)]; rfl)
  | ww32 w n => exact (decode_packCmd_ww32 _ _).trans (by rw [Instr.dataField, setWidth_setWidth_64 (by decide)]; rfl)
  | ww64 w n => exact decode_packCmd_ww64 _ _
  | rw n => exact decode_packCmd_rw _ _
  | close => exact decode_packCmd_close _ _

/-- The opcode of the command a word decodes to is the word's (R52). -/
theorem opcode_of_decode {w : CmdWord} {i : Instr} (h : decode w = .instr i) : i.opcode = cmdOp w := by
  unfold decode at h
  split at h <;> cases h <;> exact BitVec.eq_of_toNat_eq (Eq.symm ‹_›)

/-- The decoder refuses no other opcode than the four reserved ones, and names the one it refuses (R55). -/
theorem reserved_of_decode {w : CmdWord} {op : BitVec 4} (h : decode w = .reserved op) :
    op = cmdOp w ∧ (cmdOp w = 0x0 ∨ cmdOp w = 0xD ∨ cmdOp w = 0xE ∨ cmdOp w = 0xF) := by
  unfold decode at h
  split at h <;> cases h
  refine ⟨rfl, ?_⟩
  simp only [imp_false] at *
  bv_omega

/-- Settles O31: what the decoder refuses, and that it refuses those four. -/
theorem exactlyFourOpcodesAreReserved : Obligations.ExactlyFourOpcodesAreReserved :=
  fun _ => ⟨fun ⟨_, h⟩ => (reserved_of_decode h).2, fun h => ⟨_, decode_of_reserved_opcode h⟩⟩

/-- The reserved opcodes are what the table leaves (R52, R55). -/
theorem reserved_of_not_listed : ∀ op : BitVec 4, op ≠ 0x1 → op ≠ 0x2 → op ≠ 0x3 → op ≠ 0x4 → op ≠ 0x5 → op ≠ 0x6 →
    op ≠ 0x7 → op ≠ 0x8 → op ≠ 0x9 → op ≠ 0xA → op ≠ 0xB → op ≠ 0xC → op = 0x0 ∨ op = 0xD ∨ op = 0xE ∨ op = 0xF := by
  decide

/-- Settles O29: one arm per opcode, the reserved ones being what is left. -/
theorem decoderReadsTheFields : Obligations.DecoderReadsTheFields := by
  intro op n d
  refine iteInduction (fun h => h ▸ decode_packCmd_sel1 n d) fun h1 => ?_
  refine iteInduction (fun h => h ▸ decode_packCmd_sel2 n d) fun h2 => ?_
  refine iteInduction (fun h => h ▸ decode_packCmd_rel1 n d) fun h3 => ?_
  refine iteInduction (fun h => h ▸ decode_packCmd_rel2 n d) fun h4 => ?_
  refine iteInduction (fun h => h ▸ decode_packCmd_wbit n d) fun h5 => ?_
  refine iteInduction (fun h => h ▸ decode_packCmd_rbit n d) fun h6 => ?_
  refine iteInduction (fun h => h ▸ decode_packCmd_ww8 n d) fun h7 => ?_
  refine iteInduction (fun h => h ▸ decode_packCmd_ww16 n d) fun h8 => ?_
  refine iteInduction (fun h => h ▸ decode_packCmd_ww32 n d) fun h9 => ?_
  refine iteInduction (fun h => h ▸ decode_packCmd_ww64 n d) fun hA => ?_
  refine iteInduction (fun h => h ▸ decode_packCmd_rw n d) fun hB => ?_
  refine iteInduction (fun h => h ▸ decode_packCmd_close n d) fun hC => ?_
  have hop := reserved_of_not_listed op h1 h2 h3 h4 h5 h6 h7 h8 h9 hA hB hC
  rw [decode_of_reserved_opcode (by rwa [cmdOp_packCmd]), cmdOp_packCmd]

/-- Settles O33: nine closed words. -/
theorem specWordsDecodeToTheirCommands : Obligations.SpecWordsDecodeToTheirCommands := by
  unfold Obligations.SpecWordsDecodeToTheirCommands
  decide

/-- The mask keeps the opcode and clears the fields below it (R52). -/
theorem and_opcodeMask (w : CmdWord) : w &&& opcodeMask = packCmd (cmdOp w) 0 0 := by
  have hmask : opcodeMask = packCmd 0xF 0 0 := by decide
  conv_lhs => rw [← packCmd_fields w, hmask, packCmd, packCmd, BitVec.and_append, BitVec.and_append]
  rw [show cmdOp w &&& 0xF = cmdOp w from BitVec.and_allOnes, show cmdN w &&& 0 = 0 from BitVec.and_zero,
    show cmdData w &&& 0 = 0 from BitVec.and_zero, packCmd]

/-- A row's mnemonic is that of the commands of the opcode in its match, and of no other (R52). -/
theorem mnemonic_eq_iff_of_mem_opcodeTable (i : Instr) :
    ∀ row ∈ opcodeTable, i.mnemonic = row.1 ↔ i.opcode = cmdOp row.2 := by
  cases i <;> simp only [Instr.mnemonic, Instr.opcode] <;> decide

/-- A row's match is an opcode that is not reserved, above zeros (R52). -/
theorem match_of_mem_opcodeTable : ∀ row ∈ opcodeTable, row.2 = packCmd (cmdOp row.2) 0 0 ∧
    ¬(cmdOp row.2 = 0x0 ∨ cmdOp row.2 = 0xD ∨ cmdOp row.2 = 0xE ∨ cmdOp row.2 = 0xF) := by
  decide

/-- A masked word is a row's match exactly when it has the row's opcode. -/
theorem and_opcodeMask_eq_iff {row : String × CmdWord} (hrow : row ∈ opcodeTable) (w : CmdWord) :
    w &&& opcodeMask = row.2 ↔ cmdOp w = cmdOp row.2 := by
  rw [and_opcodeMask]
  refine ⟨fun h => ?_, fun h => ?_⟩
  · rw [← h, cmdOp_packCmd]
  · rw [h, ← (match_of_mem_opcodeTable row hrow).1]

/-- Settles O30: both sides say that the word has the row's opcode. -/
theorem opcodeTableSelectsTheCommand : Obligations.OpcodeTableSelectsTheCommand := by
  intro w row hrow
  rw [and_opcodeMask_eq_iff hrow]
  refine ⟨fun hop => ?_, fun ⟨i, hi, hm⟩ => ?_⟩
  · cases hw : decode w with
    | instr i => exact ⟨i, rfl, (mnemonic_eq_iff_of_mem_opcodeTable i row hrow).mpr ((opcode_of_decode hw).trans hop)⟩
    | reserved op => exact absurd (hop ▸ (reserved_of_decode hw).2) (match_of_mem_opcodeTable row hrow).2
  · exact (opcode_of_decode hi).symm.trans ((mnemonic_eq_iff_of_mem_opcodeTable i row hrow).mp hm)

/-! ### The assembler (R60) -/

/-- A command's operands fit the fields they come from. -/
theorem toAsm_wellFormed (i : Instr) : i.toAsm.wellFormed = true := by
  cases i with
  | wbit b => cases b <;> rfl
  | ww8 w n | ww16 w n | ww32 w n | ww64 w n => simp [Instr.toAsm, AsmCmd.wellFormed, countFits, w.isLt, n.isLt]
  | rw n => simp [Instr.toAsm, AsmCmd.wellFormed, countFits, n.isLt]
  | sel1 | sel2 | rel1 | rel2 | rbit | close => rfl

/-- A command is assembled from its own text. -/
theorem assemble_toAsm (i : Instr) : i.toAsm.assemble = some i := by
  unfold AsmCmd.assemble
  rw [if_pos (toAsm_wellFormed i)]
  cases i with
  | wbit b => cases b <;> rfl
  | ww8 w n | ww16 w n | ww32 w n | ww64 w n | rw n => simp [Instr.toAsm]
  | sel1 | sel2 | rel1 | rel2 | rbit | close => rfl

theorem assemble_eq_none_iff (c : AsmCmd) : c.assemble = none ↔ c.wellFormed = false := by
  simp [AsmCmd.assemble]

/-- The text of what is assembled is the text assembled: an operand that fits its field loses nothing in it. -/
theorem toAsm_of_assemble {c : AsmCmd} {i : Instr} (h : c.assemble = some i) : i.toAsm = c := by
  have hwf : c.wellFormed = true := by
    by_contra hn
    rw [(assemble_eq_none_iff c).mpr (by simpa using hn)] at h
    cases h
  unfold AsmCmd.assemble at h
  rw [if_pos hwf] at h
  cases c with
  | wbit b =>
    cases h
    have hb : b < 2 := of_decide_eq_true hwf
    interval_cases b <;> rfl
  | rw n =>
    cases h
    have hn : n < 2 ^ 8 := of_decide_eq_true hwf
    rw [Instr.toAsm, BitVec.toNat_ofNat, Nat.mod_eq_of_lt hn]
  | ww8 w n | ww16 w n | ww32 w n | ww64 w n =>
    cases h
    simp only [AsmCmd.wellFormed, countFits, Bool.and_eq_true, decide_eq_true_eq] at hwf
    obtain ⟨hw, hn⟩ := hwf
    simp only [Instr.toAsm, BitVec.toNat_ofNat, Nat.mod_eq_of_lt hw, Nat.mod_eq_of_lt hn]
  | sel1 | sel2 | rel1 | rel2 | rbit | close => cases h; rfl

/-- Settles O34: text and back, refusal, and back to the text. -/
theorem assemblerRefusesExactlyWhatDoesNotFit : Obligations.AssemblerRefusesExactlyWhatDoesNotFit :=
  ⟨assemble_toAsm, assemble_eq_none_iff, fun _ _ => toAsm_of_assemble⟩

end Sys2Proof.Machine
end

section
/-! The bus monitor on the events of a command, of CLOSE and of INIT (R75, R131, R135, R136, R145): it lets them pass when
SCLK is low and the lines they touch are open. -/

namespace Sys2Proof.Machine

/-- The monitor after an event that it allows. -/
def Monitor.after (m : Monitor) (e : Event) : Monitor :=
  { lines := m.lines.apply e, held := match e with | .hold _ => true | .write .sclk _ => false | _ => m.held }

theorem Monitor.next_of_allows {h : Ticks} {m : Monitor} {e : Event} (ha : m.allows h e = true) :
    m.next h e = some (m.after e) :=
  if_pos ha

theorem Monitor.run_cons_of_allows {h : Ticks} {m : Monitor} {e : Event} (ha : m.allows h e = true) (es : List Event) :
    m.run h (e :: es) = (m.after e).run h es := by
  rw [Monitor.run, Monitor.next_of_allows ha]

/-- SCLK at a command boundary of an open engine: driven low (R79). -/
def Lines.Calm (ln : Lines) : Prop := ln.sclk = { level := false, driven := true, isOpen := true }

theorem Lines.Calm.sclkHigh_eq_false {ln : Lines} (hc : ln.Calm) : ln.sclkHigh = false := by
  rw [Lines.sclkHigh, hc]
  rfl

/-- A pulse brings SCLK back to where it was (R75). -/
theorem Lines.Calm.replay_pulse {ln : Lines} (hc : ln.Calm) (h : Ticks) : (ln.replay (pulseEvents h)).Calm := by
  rw [Lines.Calm, Lines.replay_pulse_sclk, hc]

/-- The monitor lets a pulse pass. -/
theorem Monitor.run_pulse {m : Monitor} (hc : m.lines.Calm) (h : Ticks) :
    m.run h (pulseEvents h) = some { lines := m.lines.replay (pulseEvents h), held := false } := by
  have hsclk : m.lines.sclk = { level := false, driven := true, isOpen := true } := hc
  rw [pulseEvents, Monitor.run_cons_of_allows, Monitor.run_cons_of_allows, Monitor.run_cons_of_allows]
  · rfl
  all_goals simp [Monitor.allows, Monitor.after, Lines.sclkHigh, Lines.apply, Lines.setOut, Lines.out, hsclk]

/-- The monitor lets a bit write pass while MOSI is open. -/
theorem Monitor.run_writeBit {m : Monitor} (hc : m.lines.Calm) (ho : m.lines.isOpen .mosi = true) (h : Ticks) (b : Level) :
    ∃ m', m.run h (writeBitEvents h b) = some m' ∧ m'.lines.Calm ∧ m'.lines.isOpen .mosi = true := by
  have ha : m.allows h (.write .mosi b) = true := by
    simp [Monitor.allows, hc.sclkHigh_eq_false, show m.lines.mosi.isOpen = true from ho]
  have hc1 : (m.after (.write .mosi b)).lines.Calm := hc
  refine ⟨_, (Monitor.run_cons_of_allows ha _).trans (Monitor.run_pulse hc1 h), hc1.replay_pulse h, ?_⟩
  rw [Lines.replay_pulse_isOpen]
  exact (Lines.apply_write_isOpen _ _ _ _).trans ho

/-- The monitor lets a bit read pass while MISO is open. -/
theorem Monitor.run_readBit {m : Monitor} (hc : m.lines.Calm) (ho : m.lines.isOpen .miso = true) (h : Ticks) (b : Level) :
    ∃ m', m.run h (readBitEvents h b) = some m' ∧ m'.lines.Calm ∧ m'.lines.isOpen .miso = true := by
  have hc1 := hc.replay_pulse h
  have ho1 : (m.lines.replay (pulseEvents h)).isOpen .miso = true := by rw [Lines.replay_pulse_isOpen, ho]
  have ha : Monitor.allows h { lines := m.lines.replay (pulseEvents h), held := false } (.sample b) = true := by
    simp [Monitor.allows, hc1.sclkHigh_eq_false, show (m.lines.replay (pulseEvents h)).misoOpen = true from ho1]
  refine ⟨{ lines := m.lines.replay (pulseEvents h), held := false }, ?_, hc1, ho1⟩
  rw [readBitEvents, Monitor.run_append, Monitor.run_pulse hc, Option.bind_some, Monitor.run_cons_of_allows ha]
  rfl

/-- What each item's events keep, a list of items keeps. -/
theorem Monitor.run_flatMap {α : Type} {f : α → List Event} {h : Ticks} {P : Lines → Prop}
    (hstep : ∀ (m : Monitor) (a : α), P m.lines → ∃ m', m.run h (f a) = some m' ∧ P m'.lines) (as : List α) {m : Monitor}
    (hm : P m.lines) : ∃ m', m.run h (as.flatMap f) = some m' ∧ P m'.lines := by
  induction as generalizing m with
  | nil => exact ⟨m, rfl, hm⟩
  | cons a as ih =>
    obtain ⟨m1, hrun, hm1⟩ := hstep m a hm
    obtain ⟨m2, hrun2, hm2⟩ := ih hm1
    exact ⟨m2, by rw [List.flatMap_cons, Monitor.run_append, hrun]; exact hrun2, hm2⟩

/-- The monitor lets a word write pass, MOSI being open if there is a bit to send. -/
theorem Monitor.run_writeWord {m : Monitor} {n : Nat} (hc : m.lines.Calm) (ho : n = 0 ∨ m.lines.isOpen .mosi = true)
    (h : Ticks) (e : Endian) (w : Word) : ∃ m', m.run h (writeWordEvents h e w n) = some m' ∧ m'.lines.Calm := by
  rcases ho with rfl | ho
  · exact ⟨m, rfl, hc⟩
  · obtain ⟨m', hrun, hc', -⟩ := Monitor.run_flatMap (P := fun ln => ln.Calm ∧ ln.isOpen .mosi = true)
      (fun _ b hm => Monitor.run_writeBit hm.1 hm.2 h b) (sentBits e w n) ⟨hc, ho⟩
    exact ⟨m', hrun, hc'⟩

/-- The monitor lets a word read pass, MISO being open if there is a bit to read. -/
theorem Monitor.run_readWord {m : Monitor} {bs : List Level} (hc : m.lines.Calm)
    (ho : bs = [] ∨ m.lines.isOpen .miso = true) (h : Ticks) :
    ∃ m', m.run h (readWordEvents h bs) = some m' ∧ m'.lines.Calm := by
  rcases ho with rfl | ho
  · exact ⟨m, rfl, hc⟩
  · obtain ⟨m', hrun, hc', -⟩ := Monitor.run_flatMap (P := fun ln => ln.Calm ∧ ln.isOpen .miso = true)
      (fun _ b hm => Monitor.run_readBit hm.1 hm.2 h b) bs ⟨hc, ho⟩
    exact ⟨m', hrun, hc'⟩

/-- CLOSE disposes the present lines in the order of their ids (R107). -/
theorem closeEvents_eq_map (c : Cfg) : closeEvents c = (allLines.filter c.present).map .dispose := by
  obtain ⟨_, c2, mo, mi⟩ := c
  cases c2 <;> cases mo <;> cases mi <;> rfl

/-- SCLK does not rise by a dispose. -/
theorem Lines.sclkHigh_apply_dispose {ln : Lines} (hlow : ln.sclkHigh = false) (l : Line) :
    (ln.apply (.dispose l)).sclkHigh = false := by
  cases l with
  | sclk => rfl
  | cs1 | cs2 | mosi | miso => exact hlow

/-- The monitor lets the disposes of different open lines pass while SCLK is not high. -/
theorem Monitor.run_dispose {h : Ticks} {ls : List Line} (hnodup : ls.Nodup) {m : Monitor} (hlow : m.lines.sclkHigh = false)
    (ho : ∀ l ∈ ls, m.lines.isOpen l = true) : ∃ m', m.run h (ls.map .dispose) = some m' := by
  induction ls generalizing m with
  | nil => exact ⟨m, rfl⟩
  | cons l ls ih =>
    obtain ⟨hl, hnodup⟩ := List.nodup_cons.mp hnodup
    have ha : m.allows h (.dispose l) = true := by simp [Monitor.allows, hlow, ho l List.mem_cons_self]
    rw [List.map_cons, Monitor.run_cons_of_allows ha]
    refine ih hnodup (Lines.sclkHigh_apply_dispose hlow l) fun k hk => ?_
    have hne : l ≠ k := by rintro rfl; exact hl hk
    simp [Monitor.after, Lines.apply_isOpen, ho k (List.mem_cons_of_mem l hk), hne]

/-- The monitor lets CLOSE pass at a command boundary of an open engine. -/
theorem Monitor.run_closeEvents {m : Monitor} {c : Cfg} (hc : m.lines.Calm) (ho : ∀ l, m.lines.isOpen l = c.present l)
    (h : Ticks) : ∃ m', m.run h (closeEvents c) = some m' := by
  rw [closeEvents_eq_map]
  refine Monitor.run_dispose (List.Nodup.filter _ (by decide)) hc.sclkHigh_eq_false fun l hl => ?_
  rw [ho l]
  exact (List.mem_filter.mp hl).2

/-- The monitor lets a write of an open chip-select pass while SCLK is low. -/
theorem Monitor.run_chipSelect {m : Monitor} {l : OutLine} (hl : l = .cs1 ∨ l = .cs2) (hc : m.lines.Calm)
    (ho : m.lines.isOpen (toLine l) = true) (h : Ticks) (v : Level) :
    ∃ m', m.run h [.write l v] = some m' ∧ m'.lines.Calm := by
  have ha : m.allows h (.write l v) = true := by
    rcases hl with rfl | rfl
    · simp [Monitor.allows, hc.sclkHigh_eq_false, show m.lines.cs1.isOpen = true from ho]
    · simp [Monitor.allows, hc.sclkHigh_eq_false, show m.lines.cs2.isOpen = true from ho]
  refine ⟨_, Monitor.run_cons_of_allows ha [], ?_⟩
  rcases hl with rfl | rfl <;> exact hc

/-- A word command that lacks no line has its line or no bit to transfer (R110, D17). -/
theorem count_zero_or_present {n : BitCount} {present : Bool} (h : (!present && n != 0) = false) :
    n = 0 ∨ present = true := by
  cases present with
  | true => exact .inr rfl
  | false => exact .inl (by simpa using h)

/-- The monitor lets the events of every command pass that has its lines, at a command boundary of an open engine; CLOSE
apart, SCLK stands low again after them (R79). -/
theorem Monitor.run_commandEvents {m : Monitor} {c : Cfg} {i : Instr} {bs : List Level} (hc : m.lines.Calm)
    (ho : ∀ l, m.lines.isOpen l = c.present l) (hline : lacksLine c i = false) (hlen : bs.length = samplesTaken i)
    (h : Ticks) : ∃ m', m.run h (commandEvents c h bs i) = some m' ∧ (i ≠ .close → m'.lines.Calm) := by
  have hpass : ∀ {es}, (∃ m', m.run h es = some m' ∧ m'.lines.Calm) →
      ∃ m', m.run h es = some m' ∧ (i ≠ .close → m'.lines.Calm) := fun ⟨m', hrun, hc'⟩ => ⟨m', hrun, fun _ => hc'⟩
  cases i with
  | sel1 | rel1 => exact hpass (Monitor.run_chipSelect (.inl rfl) hc (ho .cs1) h _)
  | sel2 | rel2 =>
    have hp : c.present .cs2 = true := by simpa [lacksLine, Cfg.present] using hline
    exact hpass (Monitor.run_chipSelect (.inr rfl) hc ((ho .cs2).trans hp) h _)
  | wbit b =>
    have hp : c.present .mosi = true := by simpa [lacksLine, Cfg.present] using hline
    obtain ⟨m', hrun, hc', -⟩ := Monitor.run_writeBit hc ((ho .mosi).trans hp) h b
    exact hpass ⟨m', hrun, hc'⟩
  | ww8 w n | ww16 w n | ww32 w n | ww64 w n =>
    have hp : n.toNat = 0 ∨ c.present .mosi = true := (count_zero_or_present hline).imp_left (congrArg BitVec.toNat)
    exact hpass (Monitor.run_writeWord hc (hp.imp_right (ho .mosi).trans) h _ _)
  | rbit =>
    have hp : c.present .miso = true := by simpa [lacksLine, Cfg.present] using hline
    exact hpass (Monitor.run_readWord hc (.inr ((ho .miso).trans hp)) h)
  | rw n =>
    have hp : bs = [] ∨ c.present .miso = true := (count_zero_or_present hline).imp_left fun hn =>
      List.eq_nil_of_length_eq_zero (by rw [hlen, hn]; rfl)
    exact hpass (Monitor.run_readWord hc (hp.imp_right (ho .miso).trans) h)
  | close =>
    obtain ⟨m', hrun⟩ := Monitor.run_closeEvents hc ho h
    exact ⟨m', hrun, fun hne => absurd rfl hne⟩

/-- The monitor lets INIT pass on lines as reset leaves them, whichever are present. -/
theorem Monitor.run_initEvents {m : Monitor} {c : Cfg} {k : Nat} (hm : m.lines = Lines.atReset c k) (h : Ticks) :
    ∃ m', m.run h (initEvents c) = some m' := by
  obtain ⟨_, held⟩ := m
  obtain ⟨_, c2, mo, _⟩ := c
  subst hm
  cases c2 <;> cases mo <;> exact ⟨_, rfl⟩

end Sys2Proof.Machine
end

section
/-! The invariant: it holds at reset, and each of the things a step can be keeps it (R11, R31, R46, R79, R130, R134). -/

namespace Sys2Proof.Machine

/-- A command is taken only after INIT, with no reset pending and no response waiting (R51). -/
theorem State.cmdReady_iff {s : State} :
    s.cmdReady = true ↔ s.initDone = true ∧ s.aborting = none ∧ s.rsp = none := by
  simp [State.cmdReady, and_assoc]

theorem Lines.atReset_isOpen (c : Cfg) (k : Nat) (l : Line) : (Lines.atReset c k).isOpen l = c.present l := by
  cases l <;> rfl

/-- A reset starts from the invariant, whatever state it falls on (R130). -/
theorem Inv.construct (s : State) (p : Straps) : Inv (s.construct p) where
  bus := ⟨false, rfl⟩
  unborn _ := ⟨rfl, rfl, rfl⟩
  boundary hi := nomatch hi
  opened _ l := by simp [Lines.atReset_isOpen]
  cutOff ha := absurd rfl ha

/-- Settles O51: the reset state is an engine constructed under its straps, before anything has happened. -/
theorem invariantHoldsAtReset : Obligations.InvariantHoldsAtReset where
  bus := ⟨false, rfl⟩
  unborn _ := ⟨rfl, rfl, rfl⟩
  boundary hi := nomatch hi
  opened _ l := by cases l <;> rfl
  cutOff ha := absurd rfl ha

theorem Inv.popInput {s : State} (h : Inv s) : Inv s.popInput :=
  ⟨h.bus, h.unborn, h.boundary, h.opened, h.cutOff⟩

/-- The invariant says nothing of the response and of what the host has taken, once INIT has run. -/
theorem Inv.withResponse {s : State} (h : Inv s) (hi : s.initDone = true) (ha : s.aborting = none) (r : Option Response)
    (rs : List Response) : Inv { s with rsp := r, delivered := rs } where
  bus := h.bus
  unborn hn := absurd (hi.symm.trans hn) (by decide)
  boundary := h.boundary
  opened := h.opened
  cutOff hne := absurd ha hne

theorem Inv.offerResponse {s : State} (h : Inv s) (hi : s.initDone = true) (ha : s.aborting = none) (r : Response)
    (ready : Bool) : Inv (s.offerResponse r ready) := by
  cases ready with
  | true => exact h.withResponse hi ha none (s.delivered ++ [r])
  | false => exact h

/-- More events keep the `bus` part of the invariant if the monitor lets them pass from the lines as they stand. -/
theorem Inv.bus_append {s : State} (h : Inv s) {es : List Event}
    (hes : ∀ m : Monitor, m.lines = s.lines → ∃ m', m.run s.holdTicks es = some m') :
    ∃ held, (Monitor.start s.cfg s.lines.epoch).run s.holdTicks (s.trace ++ es) =
      some { lines := s.lines.replay es, held := held } := by
  obtain ⟨held, hrun⟩ := h.bus
  obtain ⟨m', hrun'⟩ := hes { lines := s.lines, held := held } rfl
  have hlines : m'.lines = s.lines.replay es := Monitor.run_lines hrun'
  exact ⟨m'.held, by rw [Monitor.run_append, hrun, ← hlines]; exact hrun'⟩

/-- The lines are what the trace makes of those that reset left (R11). -/
theorem Inv.lines_eq {s : State} (h : Inv s) : s.lines = (Lines.atReset s.cfg s.lines.epoch).replay s.trace := by
  obtain ⟨held, hrun⟩ := h.bus
  exact Monitor.run_lines hrun

/-- INIT keeps the invariant: nothing has happened before it, so its events come right after the reset (R131). -/
theorem Inv.runInit {s : State} (h : Inv s) (hi : s.initDone = false) : Inv s.runInit := by
  obtain ⟨htrace, h0, hrsp⟩ := h.unborn hi
  have ha : s.aborting = none := by
    by_contra hne
    exact absurd (hi.symm.trans (h.cutOff hne).1) (by decide)
  have hlines := h.lines_eq
  rw [htrace, Lines.replay_nil] at hlines
  have hsclk : (s.lines.replay (initEvents s.cfg)).out .sclk = { s.lines.sclk with level := false, driven := true } :=
    s.lines.replay_initEvents_out s.cfg .sclk
  rw [State.runInit_eq_replay]
  constructor
  case bus =>
    rw [Lines.replay_epoch]
    exact h.bus_append fun m hm => Monitor.run_initEvents (hm.trans hlines) _
  case unborn => exact fun hn => nomatch hn
  case boundary => exact fun _ _ => ⟨congrArg OutState.driven hsclk, fun _ => congrArg OutState.level hsclk⟩
  case opened =>
    intro _ l
    rw [Lines.replay_initEvents_isOpen, h.opened ha l]
  case cutOff => exact fun hne => absurd ha hne

/-- SCLK at a command boundary of an open engine (R79). -/
theorem Inv.calm {s : State} (h : Inv s) (hi : s.initDone = true) (ha : s.aborting = none) (h0 : s.closed = false) :
    s.lines.Calm := by
  obtain ⟨hdriven, hlevel⟩ := h.boundary hi ha
  have hopen : s.lines.sclk.isOpen = true := by
    have hs := h.opened ha .sclk
    rw [h0] at hs
    exact hs
  change OutState.mk s.lines.sclk.level s.lines.sclk.driven s.lines.sclk.isOpen = _
  rw [hdriven, hlevel h0, hopen]

/-- No command but CLOSE disposes a line, and CLOSE the present ones (R105). -/
theorem dispose_mem_commandEvents (c : Cfg) (h : Ticks) (bs : List Level) (i : Instr) (l : Line) :
    Event.dispose l ∈ commandEvents c h bs i ↔ i = .close ∧ c.present l = true := by
  cases i with
  | close => simp [commandEvents, dispose_mem_closeEvents]
  | sel1 | sel2 | rel1 | rel2 | wbit _ | rbit | ww8 _ _ | ww16 _ _ | ww32 _ _ | ww64 _ _ | rw _ =>
    simp [commandEvents, writeWordEvents, readWordEvents, writeBitEvents, readBitEvents, pulseEvents]

/-- A command that succeeds on an open engine keeps the invariant. -/
theorem Inv.afterCommand {s : State} {i : Instr} {bs : List Level} (h : Inv s) (hi : s.initDone = true)
    (ha : s.aborting = none) (h0 : s.closed = false) (hline : lacksLine s.cfg i = false)
    (hlen : bs.length = samplesTaken i) (k : Nat) : Inv (s.afterCommand i bs k) := by
  have hopen : ∀ l, s.lines.isOpen l = s.cfg.present l := fun l => by rw [h.opened ha l, h0, Bool.not_false, Bool.and_true]
  have hpass : ∀ m : Monitor, m.lines = s.lines → ∃ m', m.run s.holdTicks (commandEvents s.cfg s.holdTicks bs i) = some m' ∧
      (i ≠ .close → m'.lines.Calm) := fun m hm =>
    Monitor.run_commandEvents (hm ▸ h.calm hi ha h0) (hm ▸ hopen) hline hlen s.holdTicks
  constructor
  case bus =>
    have hbus := h.bus_append fun m hm => (hpass m hm).imp fun _ => And.left
    rwa [← Lines.replay_epoch s.lines] at hbus
  case unborn => exact fun hn => absurd (hi.symm.trans hn) (by decide)
  case boundary =>
    refine fun _ _ => ⟨?_, fun hn => ?_⟩
    · exact (Lines.replay_driven s.lines _ .sclk).mpr (.inl (h.boundary hi ha).1)
    · have hne : i ≠ .close := by
        rintro rfl
        exact absurd ((s.afterCommand_close_closed bs k).symm.trans hn) (by decide)
      obtain ⟨m', hrun, hcalm⟩ := hpass { lines := s.lines, held := false } rfl
      have hsclk := hcalm hne
      rw [Monitor.run_lines hrun] at hsclk
      exact congrArg OutState.level hsclk
  case opened =>
    intro _ l
    have hd := dispose_mem_commandEvents s.cfg s.holdTicks bs i l
    simp only [State.afterCommand, Lines.replay_isOpen, hd, hopen l, h0]
    by_cases hc : i = .close <;> cases hp : s.cfg.present l <;> simp [hc]
  case cutOff => exact fun hne => absurd ha hne

/-- A command word that is taken keeps the invariant. -/
theorem Inv.runWord {s t : State} {w : CmdWord} (h : Inv s) (hi : s.initDone = true) (ha : s.aborting = none)
    (hw : s.runWord w = .next t) : Inv t := by
  obtain ⟨st, v, -, rfl⟩ | ⟨i, bs, k, -, h0, -, hline, hlen, -, rfl⟩ := runWord_cases hw
  · exact h.withResponse hi ha _ s.delivered
  · exact h.afterCommand hi ha h0 hline hlen k

/-- A command word only appends to the trace, its lines are what the new events make of the old ones, and it changes
nothing that `Kept` names. -/
theorem runWord_events {s t : State} {w : CmdWord} (hw : s.runWord w = .next t) :
    ∃ es, t.trace = s.trace ++ es ∧ t.lines = s.lines.replay es ∧ Kept s t := by
  obtain ⟨st, v, -, rfl⟩ | ⟨i, bs, k, -, -, -, -, -, -, rfl⟩ := runWord_cases hw
  · exact ⟨[], (List.append_nil _).symm, rfl, rfl, rfl, rfl, rfl, rfl, rfl⟩
  · exact ⟨_, rfl, rfl, s.afterCommand_kept i bs k⟩

/-- A command cut short keeps the invariant: of the events that the monitor lets pass, it lets the first ones pass. -/
theorem Inv.cutShort {s t : State} {w : CmdWord} (h : Inv s) (hi : s.initDone = true) (ha : s.aborting = none)
    (hw : s.runWord w = .next t) (k : Nat) (p : Straps) : Inv (s.cutShort t k p) := by
  obtain ⟨es, htrace, hlines, hcfg, hticks, hinit, -⟩ := runWord_events hw
  obtain ⟨htrace', hlines'⟩ := State.cutShort_events k p htrace
  obtain ⟨held, hrun⟩ := (h.runWord hi ha hw).bus
  constructor
  case bus =>
    rw [hcfg, hlines, Lines.replay_epoch, htrace, ← List.take_append_drop k es, ← List.append_assoc] at hrun
    obtain ⟨m1, hrun1, -⟩ := Monitor.run_split hrun
    have hm1 : m1.lines = s.lines.replay (es.take k) := by
      rw [Monitor.run_lines hrun1, Lines.replay_append]
      exact congrArg (Lines.replay · _) h.lines_eq.symm
    have hcfg' : (s.cutShort t k p).cfg = s.cfg := hcfg
    exact ⟨m1.held, by rw [htrace', hlines', Lines.replay_epoch, hcfg', ← hm1]; exact hrun1⟩
  case unborn => exact fun hn => absurd ((hinit.trans hi).symm.trans hn) (by decide)
  case boundary => exact fun _ hn => nomatch hn
  case opened => exact fun hn => nomatch hn
  case cutOff => exact fun _ => ⟨hinit.trans hi, rfl⟩

/-- Settles O52: one case for each of the things a step can be. -/
theorem everyStepKeepsTheInvariant : Obligations.EveryStepKeepsTheInvariant := by
  intro s t h hstep
  obtain ⟨p, -, rfl⟩ | ⟨ha, ⟨p, -, rfl⟩ | ⟨k, p, -, -, rfl⟩ | ⟨k, p, w, u, -, hready, -, hw, rfl⟩ | ⟨-, hi, rfl⟩ |
    ⟨r, -, hi, -, rfl⟩ | ⟨w, ⟨hready, -, -⟩, hw⟩ | ⟨-, -, -, rfl⟩⟩ := step_cases hstep
  · exact Inv.construct s p
  · exact Inv.construct s.popInput p
  · exact Inv.construct s.popInput p
  · exact h.popInput.cutShort (State.cmdReady_iff.mp hready).1 ha hw k p
  · exact h.popInput.runInit hi
  · exact h.popInput.offerResponse hi ha r _
  · exact h.popInput.runWord (State.cmdReady_iff.mp hready).1 ha hw
  · exact h.popInput

end Sys2Proof.Machine
end

section
/-! The views of the state (R18, R20, R21, R56, R58): where each bit of a register stands. -/

namespace Sys2Proof.Machine

/-- Settles O35: the two parts of the appended word. -/
theorem responseWordHoldsStatusAndValue : Obligations.ResponseWordHoldsStatusAndValue := by
  intro r
  refine ⟨BitVec.extractLsb'_append_eq_right, BitVec.extractLsb'_append_eq_left.trans ?_⟩
  cases r.status <;> rfl

/-- A bit appended below a vector whose bits are `bs`, bit 0 first. -/
theorem getLsbD_append_ofBool {k : Nat} {x : BitVec k} {bs : List Bool} (hx : ∀ j, x.getLsbD j = bs.getD j false) (b : Bool)
    (j : Nat) : (x ++ BitVec.ofBool b).getLsbD j = (b :: bs).getD j false := by
  rw [BitVec.getLsbD_append]
  cases j with
  | zero => simp
  | succ j => simp [hx]

theorem getLsbD_ofBool_eq_getD (b : Bool) (j : Nat) : (BitVec.ofBool b).getLsbD j = [b].getD j false := by
  cases j <;> simp

/-- The bits of CFG, bit 0 first (R18). -/
theorem Cfg.getLsbD_toBits (c : Cfg) (j : Nat) :
    c.toBits.getLsbD j = [c.endian == .big, c.hasCs2, c.hasMosi, c.hasMiso].getD j false :=
  getLsbD_append_ofBool (getLsbD_append_ofBool (getLsbD_append_ofBool (getLsbD_ofBool_eq_getD _) _) _) _ j

/-- The bits of LINES, bit 0 first: the levels of the output lines, then the open bits in the order of the ids (R21). -/
theorem State.getLsbD_linesReg (s : State) (j : Nat) :
    s.linesReg.getLsbD j =
      ([s.lines.sclk.level, s.lines.cs1.level, !s.cfg.hasCs2 || s.lines.cs2.level, s.cfg.hasMosi && s.lines.mosi.level] ++
        allLines.map s.lines.isOpen).getD j false :=
  getLsbD_append_ofBool (getLsbD_append_ofBool (getLsbD_append_ofBool (getLsbD_append_ofBool (getLsbD_append_ofBool
    (getLsbD_append_ofBool (getLsbD_append_ofBool (getLsbD_append_ofBool (getLsbD_ofBool_eq_getD _) _) _) _) _) _) _) _) _ j

/-- Settles O36: CFG and LINES bit by bit; STATUS is BUSY above the code of the phase. -/
theorem registerBitsAreWhereTheTablesPutThem : Obligations.RegisterBitsAreWhereTheTablesPutThem := by
  refine ⟨fun c => ⟨(c.getLsbD_toBits 0).trans ?_, c.getLsbD_toBits 1, c.getLsbD_toBits 2, c.getLsbD_toBits 3⟩, fun s => ?_⟩
  · cases c.endian <;> rfl
  have hlines := s.getLsbD_linesReg
  refine ⟨?_, ?_, hlines 0, hlines 1, (hlines 2).trans ?_, (hlines 3).trans ?_, fun l => ?_⟩
  · exact (BitVec.getLsbD_append (i := 2) ..).trans (by simp)
  · rw [State.statusReg, BitVec.extractLsb'_append_eq_right]
    cases s.phase <;> rfl
  · cases s.cfg.hasCs2 <;> rfl
  · cases s.cfg.hasMosi <;> rfl
  · cases l with
    | sclk => exact hlines 4
    | cs1 => exact hlines 5
    | cs2 => exact hlines 6
    | mosi => exact hlines 7
    | miso => exact hlines 8

end Sys2Proof.Machine
end

section
/-! The channels (R51, R57), reset (R130, R134), and what holds of every step: it answers, and it moves the configuration,
`closed` and the trace only as the rules say. -/

namespace Sys2Proof.Machine

/-! ### Reset -/

theorem Lines.atReset_out_driven (c : Cfg) (k : Nat) (l : OutLine) : ((Lines.atReset c k).out l).driven = false := by
  cases l <;> rfl

/-- Nothing is driven by an engine just constructed (R130). -/
theorem State.construct_outEnable (s : State) (p : Straps) (l : OutLine) : (s.construct p).outEnable l = false := by
  rw [State.outEnable, State.construct_lines, Lines.atReset_out_driven, Bool.and_false]

/-- A reset that a command was cut short by takes effect in the next step (R134). -/
theorem step_of_aborting {s : State} {p : Straps} (ha : s.aborting = some p) : step s = .next (s.construct p) := by
  simp [step, State.clocked, ha]

/-- While `rst = 1` the step is a reset (R130). -/
theorem step_of_rst_high {s : State} {p : Straps} (ha : s.aborting = none) (hr : s.port.rst = .high p) :
    step s = .next (s.popInput.construct p) := by
  simp [step, State.clocked, ha, hr]

/-- Settles O1: the step constructs the engine anew from the straps. -/
theorem resetConstructsTheEngine : Obligations.ResetConstructsTheEngine := fun _ p ha hr =>
  ⟨_, step_of_rst_high ha hr, rfl, rfl, rfl, rfl, rfl, rfl, Lines.atReset_isOpen _ _, State.construct_outEnable _ p, rfl, rfl,
    rfl, rfl, rfl, rfl⟩

/-- Settles O2: each line and each port of the record read off. -/
theorem resetStateHoldsTheTableValues : Obligations.ResetStateHoldsTheTableValues := by
  refine ⟨rfl, rfl, rfl, fun l => ?_, fun l => ?_, rfl, rfl, rfl⟩ <;> cases l <;> rfl

/-! ### Commands and responses -/

/-- Every command word leaves a response. -/
theorem runWord_rsp {s t : State} {w : CmdWord} (hw : s.runWord w = .next t) : ∃ r, t.rsp = some r := by
  obtain ⟨st, v, -, rfl⟩ | ⟨i, bs, k, -, -, -, -, -, -, rfl⟩ := runWord_cases hw
  · exact ⟨_, rfl⟩
  · exact ⟨_, rfl⟩

/-- Settles O25: the word's response is pending, and while it is the engine is not ready. -/
theorem takingACommandLeavesAResponsePending : Obligations.TakingACommandLeavesAResponsePending := by
  intro s w htakes
  obtain ⟨t, hw⟩ := runWord_total s.popInput w
  obtain ⟨r, hr⟩ := runWord_rsp hw
  obtain ⟨-, -, -, -, -, -, -, hinputs, hdelivered⟩ := runWord_events hw
  refine ⟨t, (step_of_takes htakes).trans hw, by simp [State.rspValid, hr], ?_, hinputs, hdelivered⟩
  simp [State.cmdReady, hr]

/-- After INIT, with no reset, a step with a response waiting offers it to the host (R57). -/
theorem step_of_rsp {s : State} {r : Response} (hi : s.initDone = true) (ha : s.aborting = none) (hr : s.rsp = some r)
    (hrst : s.port.rst = .low) : step s = .next (s.popInput.offerResponse r s.port.rspReady) := by
  simp [step, State.clocked, ha, hrst, State.advance, hi, hr]

/-- Settles O26: the two things an offer can come to. -/
theorem responseIsHeldUntilTaken : Obligations.ResponseIsHeldUntilTaken := by
  refine fun s r hi ha hr hrst => ⟨fun hready => ?_, fun hready => ?_⟩
  · rw [step_of_rsp hi ha hr hrst, hready]
    rfl
  · rw [step_of_rsp hi ha hr hrst, hready]
    rfl

/-- Settles O27: the word that is taken is decoded and run. -/
theorem stepRunsTheDecodedCommand : Obligations.StepRunsTheDecodedCommand := fun s _ _ htakes hi =>
  (step_of_takes htakes).trans (runWord_instr hi s.popInput)

/-- When `rst` rises during a command, the step is the command cut short (R134). -/
theorem step_of_rises {s t : State} {w : CmdWord} {k : Nat} {p : Straps} (hready : s.cmdReady = true)
    (hcmd : s.port.cmd = some w) (hrst : s.port.rst = .rises k p) (hw : s.popInput.runWord w = .next t) :
    step s = .next (s.popInput.cutShort t k p) := by
  have hready' : s.popInput.cmdReady = true := hready
  simp [step, State.clocked, (State.cmdReady_iff.mp hready).2.1, hrst, State.resetDuring, hready', hcmd, hw]

/-- Settles O28: the step is the command cut short, and the step after it is the reset. -/
theorem resetDuringACommandCutsItShort : Obligations.ResetDuringACommandCutsItShort := by
  intro s w k p hready hcmd hrst
  obtain ⟨whole, hw⟩ := runWord_total s.popInput w
  obtain ⟨es, htrace, -, hcfg, -⟩ := runWord_events hw
  obtain ⟨htrace', hlines'⟩ := State.cutShort_events k p htrace
  exact ⟨whole, _, es, hw, htrace, step_of_rises hready hcmd hrst hw, htrace', hlines', rfl, hcfg, rfl,
    _, step_of_aborting rfl, rfl, rfl, rfl, rfl, State.construct_outEnable _ p, rfl⟩

/-! ### Every step -/

/-- A step answers a next state when the ports leave it a command to run, because every command does. -/
theorem advance_total (s : State) (q : PortIn) : ∃ t, s.advance q = .next t := by
  unfold State.advance
  split
  · exact ⟨_, rfl⟩
  · split
    · exact ⟨_, rfl⟩
    · exact runWord_total s _
    · exact ⟨_, rfl⟩

theorem resetDuring_total (s : State) (q : PortIn) (k : Nat) (p : Straps) : ∃ t, s.resetDuring q k p = .next t := by
  unfold State.resetDuring
  split
  · next w _ _ =>
    obtain ⟨t, hw⟩ := runWord_total s w
    rw [hw]
    exact ⟨_, rfl⟩
  · exact ⟨_, rfl⟩

/-- Settles O47: none of the things a step can be stops the engine. -/
theorem everyStepAnswersANextState : Obligations.EveryStepAnswersANextState := by
  intro s
  unfold step State.clocked
  split
  · exact ⟨_, rfl⟩
  · split
    · exact ⟨_, rfl⟩
    · exact resetDuring_total _ _ _ _
    · exact advance_total _ _

/-- INVERSION of `step`, the resets taken together. -/
theorem step_reset_cases {s t : State} (h : step s = .next t) :
    (∃ p u, ResetsWith s p ∧ t = State.construct u p) ∨
    (∃ k p w u, s.cmdReady = true ∧ s.popInput.runWord w = .next u ∧ t = s.popInput.cutShort u k p) ∨
    (s.initDone = false ∧ t = s.popInput.runInit) ∨
    (∃ rsp delivered, t = { s.popInput with rsp := rsp, delivered := delivered }) ∨
    (∃ w, Takes s w ∧ s.popInput.runWord w = .next t) := by
  obtain ⟨p, ha, rfl⟩ | ⟨ha, ⟨p, hrst, rfl⟩ | ⟨k, p, hrst, hnot, rfl⟩ | ⟨k, p, w, u, -, hready, -, hw, rfl⟩ |
    ⟨-, hi, rfl⟩ | ⟨r, -, -, -, rfl⟩ | ⟨w, htakes, hw⟩ | ⟨-, -, -, rfl⟩⟩ := step_cases h
  · exact .inl ⟨p, s, .inl ha, rfl⟩
  · exact .inl ⟨p, _, .inr ⟨ha, .inl hrst⟩, rfl⟩
  · exact .inl ⟨p, _, .inr ⟨ha, .inr ⟨k, hrst, hnot⟩⟩, rfl⟩
  · exact .inr (.inl ⟨k, p, w, u, hready, hw, rfl⟩)
  · exact .inr (.inr (.inl ⟨hi, rfl⟩))
  · refine .inr (.inr (.inr (.inl ?_)))
    cases s.port.rspReady with
    | true => exact ⟨none, s.delivered ++ [r], rfl⟩
    | false => exact ⟨s.rsp, s.delivered, rfl⟩
  · exact .inr (.inr (.inr (.inr ⟨w, htakes, hw⟩)))
  · exact .inr (.inr (.inr (.inl ⟨s.rsp, s.delivered, rfl⟩)))

/-- Settles O4: no command changes the configuration, nor does INIT or a hand-over. -/
theorem configurationChangesOnlyAtReset : Obligations.ConfigurationChangesOnlyAtReset := by
  intro s t h
  obtain ⟨p, u, hreset, rfl⟩ | ⟨k, p, w, u, -, hw, rfl⟩ | ⟨-, rfl⟩ | ⟨rsp, delivered, rfl⟩ | ⟨w, -, hw⟩ :=
    step_reset_cases h
  · exact .inr ⟨p, hreset, rfl, rfl⟩
  · obtain ⟨-, -, -, hcfg, hticks, -⟩ := runWord_events hw
    exact .inl ⟨hcfg, hticks⟩
  · rw [State.runInit_eq_replay]
    exact .inl ⟨rfl, rfl⟩
  · exact .inl ⟨rfl, rfl⟩
  · obtain ⟨-, -, -, hcfg, hticks, -⟩ := runWord_events hw
    exact .inl ⟨hcfg, hticks⟩

/-- A command word leaves `closed` as it was, or is CLOSE (R17). -/
theorem runWord_closed {s t : State} {w : CmdWord} (hw : s.runWord w = .next t) :
    t.closed = s.closed ∨ (t.closed = true ∧ decode w = .instr .close) := by
  obtain ⟨st, v, -, rfl⟩ | ⟨i, bs, k, hi, -, -, -, -, -, rfl⟩ := runWord_cases hw
  · exact .inl rfl
  · by_cases hc : i = .close
    · exact .inr ⟨hc ▸ s.afterCommand_close_closed bs k, hc ▸ hi⟩
    · exact .inl (s.afterCommand_closed hc bs k)

/-- What a step can do to `closed` (R17). -/
theorem step_closed {s t : State} (h : step s = .next t) :
    (t.closed = false ∧ ∃ p, ResetsWith s p) ∨ t.closed = s.closed ∨
      (t.closed = true ∧ ∃ w, Takes s w ∧ decode w = .instr .close) := by
  obtain ⟨p, u, hreset, rfl⟩ | ⟨k, p, w, u, -, hw, rfl⟩ | ⟨-, rfl⟩ | ⟨rsp, delivered, rfl⟩ | ⟨w, htakes, hw⟩ :=
    step_reset_cases h
  · exact .inl ⟨rfl, p, hreset⟩
  · exact .inr (.inl rfl)
  · rw [State.runInit_eq_replay]
    exact .inr (.inl rfl)
  · exact .inr (.inl rfl)
  · exact .inr ((runWord_closed hw).imp_right fun ⟨hc, hclose⟩ => ⟨hc, w, htakes, hclose⟩)

/-- Settles O48: the first and the last of the things a step can do to `closed`. -/
theorem closedIsSetByCloseAndClearedByReset : Obligations.ClosedIsSetByCloseAndClearedByReset := by
  intro s t h
  obtain ⟨ht, hreset⟩ | hsame | ⟨ht, hclose⟩ := step_closed h
  · exact ⟨fun _ hn => absurd (ht.symm.trans hn) (by decide), fun _ _ => hreset⟩
  · exact ⟨fun hs hn => absurd (hs.symm.trans (hsame.symm.trans hn)) (by decide),
      fun hs hn => absurd (hs.symm.trans (hsame.symm.trans hn)) (by decide)⟩
  · exact ⟨fun _ _ => hclose, fun _ hn => absurd (ht.symm.trans hn) (by decide)⟩

/-- A closed engine answers every command word with an error (R112, R113). -/
theorem runWord_of_closed {s t : State} {w : CmdWord} (h0 : s.closed = true) (hw : s.runWord w = .next t) :
    ∃ st v, t = Answered s st v := by
  obtain ⟨st, v, -, rfl⟩ | ⟨-, -, -, -, hopen, -⟩ := runWord_cases hw
  · exact ⟨st, v, rfl⟩
  · exact absurd (h0.symm.trans hopen) (by decide)

/-- Settles O49: a closed engine runs no command, so there is no event, and none to cut a command short after. -/
theorem noEventAfterClose : Obligations.NoEventAfterClose := by
  intro s t h h0 hi
  obtain ⟨p, u, hreset, rfl⟩ | ⟨k, p, w, u, -, hw, rfl⟩ | ⟨hn, -⟩ | ⟨rsp, delivered, rfl⟩ | ⟨w, -, hw⟩ :=
    step_reset_cases h
  · exact .inr ⟨p, hreset⟩
  · obtain ⟨st, v, rfl⟩ := runWord_of_closed (s := s.popInput) h0 hw
    have hnone : (Answered s.popInput st v).trace = s.popInput.trace ++ [] := (List.append_nil _).symm
    obtain ⟨htrace, hlines⟩ := State.cutShort_events k p hnone
    rw [List.take_nil] at htrace hlines
    exact .inl ⟨htrace.trans (List.append_nil _), hlines, h0⟩
  · exact absurd (hi.symm.trans hn) (by decide)
  · exact .inl ⟨rfl, rfl, h0⟩
  · obtain ⟨st, v, rfl⟩ := runWord_of_closed (s := s.popInput) h0 hw
    exact .inl ⟨rfl, rfl, h0⟩

end Sys2Proof.Machine
end

section
/-! The bits of a word on the lines (R33, R72, R74, R79, R90, R91): what the events of a command hold, and a word command
against its bits one by one. -/

namespace Sys2Proof.Machine

/-! ### What the events of a bit hold, and of a list of bits -/

/-- Where each bit's events hold `c` events of a kind, a list of bits holds `c` for each. -/
theorem countP_flatMap_const {p : Event → Bool} {f : Level → List Event} {c : Nat} (hf : ∀ b, (f b).countP p = c)
    (bs : List Level) : (bs.flatMap f).countP p = bs.length * c := by
  simp [List.countP_flatMap, Function.comp_def, hf]

theorem risingEdges_bitWrites (h : Ticks) (bs : List Level) : risingEdges (bs.flatMap (writeBitEvents h)) = bs.length :=
  (countP_flatMap_const (c := 1) (fun _ => rfl) bs).trans (Nat.mul_one _)

theorem risingEdges_bitReads (h : Ticks) (bs : List Level) : risingEdges (readWordEvents h bs) = bs.length :=
  (countP_flatMap_const (c := 1) (fun _ => rfl) bs).trans (Nat.mul_one _)

theorem countP_isSample_bitWrites (h : Ticks) (bs : List Level) : (bs.flatMap (writeBitEvents h)).countP isSample = 0 :=
  countP_flatMap_const (c := 0) (fun _ => rfl) bs

theorem countP_isSample_bitReads (h : Ticks) (bs : List Level) : (readWordEvents h bs).countP isSample = bs.length :=
  (countP_flatMap_const (c := 1) (fun _ => rfl) bs).trans (Nat.mul_one _)

/-- The bits written are the bits on MOSI. -/
theorem mosiBits_bitWrites (h : Ticks) (bs : List Level) : mosiBits (bs.flatMap (writeBitEvents h)) = bs :=
  List.filterMap_flatMap.trans (List.flatMap_singleton' bs)

theorem mosiBits_bitReads (h : Ticks) (bs : List Level) : mosiBits (readWordEvents h bs) = [] :=
  List.filterMap_flatMap.trans (List.flatMap_eq_nil_iff.mpr fun _ _ => rfl)

theorem length_sentBits (e : Endian) (w : Word) (n : Nat) : (sentBits e w n).length = n := by
  simp [sentBits]

theorem mosiBits_writeWordEvents (h : Ticks) (e : Endian) (w : Word) (n : Nat) :
    mosiBits (writeWordEvents h e w n) = sentBits e w n :=
  mosiBits_bitWrites h _

/-! ### The word write and its word read -/

/-- A word write that passes its checks, with its trace, its lines and the bits it puts on MOSI (R84). -/
theorem exec_writeParts_events {i : Instr} {k : Nat} {w : Word} {n : BitCount} {s : State}
    (h : writeParts i = some (k, w, n)) (h0 : s.closed = false) (h1 : n.toNat ≤ k) (h2 : s.cfg.hasMosi = true) :
    ∃ t, exec i s = .next t ∧ t.trace = s.trace ++ (sentBits s.cfg.endian w n.toNat).flatMap (writeBitEvents s.holdTicks) ∧
      t.lines = s.lines.replay ((sentBits s.cfg.endian w n.toNat).flatMap (writeBitEvents s.holdTicks)) ∧
      mosiBits (t.trace.drop s.trace.length) = sentBits s.cfg.endian w n.toNat := by
  obtain ⟨m, he⟩ := exec_writeParts_ok h h0 h1 (.inr h2)
  rw [State.afterCommand_of_writeParts s m h] at he
  exact ⟨_, he, rfl, rfl, by rw [List.drop_left, mosiBits_writeWordEvents]⟩

/-- Settles O37: the bits on MOSI are those of the steps in order; under LittleEndian step `j` sends bit `n - 1 - j`. -/
theorem endianFixesTheOrderOnTheLine : Obligations.EndianFixesTheOrderOnTheLine := by
  intro i k w n s h h0 h1 h2
  obtain ⟨t, he, -, -, hbits⟩ := exec_writeParts_events h h0 h1 h2
  refine ⟨t, he, hbits.trans ?_⟩
  cases s.cfg.endian with
  | big => rfl
  | little =>
    refine List.ext_getElem (by simp [sentBits]) fun j hj _ => ?_
    simp [sentBits]

/-- Bit `j` of a word read whose samples are the bits of a word write, the two orders being any (R72, R73). -/
theorem gather_sentBits_bit (e e' : Endian) (w : Word) {n j : Nat} (hn : n ≤ 64) (hj : j < n) :
    (gather e' n 0 0 (sentBits e w n)).getLsbD j = w.getLsbD (idx e n (idx e' n j)) := by
  have hstep := gather_zero_bit e' hn (length_sentBits e w n) (idx_lt e' hj)
  rw [idx_idx e' hj] at hstep
  rw [hstep]
  simp [sentBits, idx_lt e' hj]

/-- A word read of as many samples as are listed takes just those. -/
theorem exec_rw_listed {u : State} {n : BitCount} (h0 : u.closed = false) (h1 : n.toNat ≤ 64)
    (h2 : u.cfg.hasMiso = true) (hlen : n.toNat ≤ u.misoIn.length) :
    ∃ m, exec (.rw n) u = .next (u.afterCommand (.rw n) (u.misoIn.take n.toNat) m) := by
  obtain ⟨bs, m, hbs, hpre, he⟩ := exec_rw_ok h0 h1 (.inr h2)
  have heq : u.misoIn.take n.toNat = bs := hpre.eq_of_length (by rw [hbs, List.length_take, Nat.min_eq_left hlen])
  exact ⟨m, heq ▸ he⟩

theorem width_of_writeParts {i : Instr} {k : Nat} {w : Word} {n : BitCount} (h : writeParts i = some (k, w, n)) :
    k ≤ 64 := by
  cases i <;> cases h <;> decide

/-- The bits of a word write replayed to a word read of the same count (R74). -/
theorem exec_rw_of_sentBits {u : State} {n : BitCount} {e : Endian} {w : Word} (h0 : u.closed = false)
    (h1 : n.toNat ≤ 64) (h2 : u.cfg.hasMiso = true) (hm : u.misoIn = sentBits e w n.toNat) :
    ∃ v, exec (.rw n) u = .next v ∧
      v.rsp = some { status := .ok, value := gather u.cfg.endian n.toNat 0 0 (sentBits e w n.toNat) } := by
  have hlen : u.misoIn.length = n.toNat := by rw [hm, length_sentBits]
  obtain ⟨m, he⟩ := exec_rw_listed h0 h1 h2 hlen.ge
  rw [List.take_of_length_le hlen.le, hm] at he
  exact ⟨_, he, rfl⟩

/-- Read back in the order of the write, the bits below `n` are the word's (R74). -/
theorem gather_sentBits_same (e : Endian) (w : Word) {n : Nat} (hn : n ≤ 64) :
    gather e n 0 0 (sentBits e w n) = BitVec.ofNat 64 (w.toNat % 2 ^ n) := by
  refine BitVec.eq_of_getLsbD_eq fun j hj => ?_
  rw [BitVec.getLsbD_ofNat, Nat.testBit_mod_two_pow, BitVec.testBit_toNat]
  by_cases hjn : j < n
  · rw [gather_sentBits_bit e e w hn hjn, idx_idx e hjn, decide_eq_true hj, decide_eq_true hjn, Bool.true_and, Bool.true_and]
  · rw [gather_zero_high e (length_sentBits e w n) (Nat.not_lt.mp hjn), decide_eq_false hjn, Bool.false_and, Bool.and_false]

/-- One order after the other reverses the bits (R70, R74). -/
theorem idx_idx_of_ne {e e' : Endian} (hne : e' ≠ e) (n j : Nat) : idx e n (idx e' n j) = n - 1 - j := by
  cases e with
  | big =>
    cases e' with
    | big => exact absurd rfl hne
    | little => rfl
  | little =>
    cases e' with
    | big => rfl
    | little => exact absurd rfl hne

/-- Settles O38: the write puts its bits on MOSI, the read gathers them at the indices they came from. -/
theorem replayedWordReadsBackModuloPowerOfTwo : Obligations.ReplayedWordReadsBackModuloPowerOfTwo := by
  intro i k w n s h h0 h1 h2
  have hn := h1.trans (width_of_writeParts h)
  obtain ⟨t, he, -, -, hbits⟩ := exec_writeParts_events h h0 h1 h2
  refine ⟨t, he, fun u hu0 hu2 hend hm => ?_⟩
  obtain ⟨v, hv, hrsp⟩ := exec_rw_of_sentBits hu0 hn hu2 (hm.trans hbits)
  rw [hend, gather_sentBits_same _ w hn] at hrsp
  exact ⟨v, hv, hrsp⟩

/-- Settles O39: the read gathers each bit at the index it has in the other order. -/
theorem replayedUnderTheOtherEndianReversesTheBits : Obligations.ReplayedUnderTheOtherEndianReversesTheBits := by
  intro i k w n s h h0 h1 h2
  have hn := h1.trans (width_of_writeParts h)
  obtain ⟨t, he, -, -, hbits⟩ := exec_writeParts_events h h0 h1 h2
  refine ⟨t, he, fun u hu0 hu2 hend hm => ?_⟩
  obtain ⟨v, hv, hrsp⟩ := exec_rw_of_sentBits hu0 hn hu2 (hm.trans hbits)
  refine ⟨v, _, hv, hrsp, fun j hj => ?_, fun j hj => gather_zero_high _ (length_sentBits _ w _) hj⟩
  rw [gather_sentBits_bit _ _ w hn hj, idx_idx_of_ne hend]

/-! ### A word command and its bits one by one -/

/-- A command issued leads where `exec` does. -/
theorem State.issue_of_exec {i : Instr} {s t : State} (h : exec i s = .next t) : s.issue i = t := by
  rw [State.issue, h]

theorem State.issueAll_cons (s : State) (i : Instr) (is : List Instr) :
    s.issueAll (i :: is) = (s.issue i).issueAll is := rfl

/-- Successive WBIT commands on an open engine with MOSI: the events of their bits, in order (R80). -/
theorem issueAll_wbits {s : State} (h0 : s.closed = false) (hm : s.cfg.hasMosi = true) (bs : List Level) :
    (s.issueAll (bs.map .wbit)).trace = s.trace ++ bs.flatMap (writeBitEvents s.holdTicks) ∧
      (s.issueAll (bs.map .wbit)).lines = s.lines.replay (bs.flatMap (writeBitEvents s.holdTicks)) := by
  induction bs generalizing s with
  | nil => exact ⟨(List.append_nil _).symm, rfl⟩
  | cons b bs ih =>
    obtain ⟨k, he⟩ := exec_wbit_ok b h0 hm
    obtain ⟨htrace, hlines⟩ := ih (s := s.afterCommand (.wbit b) [] k)
      ((s.afterCommand_closed (by simp) [] k).trans h0) hm
    rw [List.map_cons, State.issueAll_cons, State.issue_of_exec he, htrace, hlines, List.flatMap_cons, Lines.replay_append]
    exact ⟨List.append_assoc .., rfl⟩

/-- Settles O40: both append the same events to the trace and replay them on the lines. -/
theorem wordWriteEqualsItsBitWrites : Obligations.WordWriteEqualsItsBitWrites := by
  intro i k w n s h h0 h1 h2
  obtain ⟨t, he, htrace, hlines, -⟩ := exec_writeParts_events h h0 h1 h2
  obtain ⟨htrace', hlines'⟩ := issueAll_wbits h0 h2 (sentBits s.cfg.endian w n.toNat)
  exact ⟨t, he, htrace.trans htrace'.symm, hlines.trans hlines'.symm⟩

/-- Successive RBIT commands on an open engine with MISO and enough listed samples: the events of reading those (R82). -/
theorem issueAll_rbits {s : State} (h0 : s.closed = false) (hm : s.cfg.hasMiso = true) (n : Nat)
    (hlen : n ≤ s.misoIn.length) :
    (s.issueAll (List.replicate n .rbit)).trace = s.trace ++ readWordEvents s.holdTicks (s.misoIn.take n) ∧
      (s.issueAll (List.replicate n .rbit)).lines = s.lines.replay (readWordEvents s.holdTicks (s.misoIn.take n)) := by
  induction n generalizing s with
  | zero => exact ⟨(List.append_nil _).symm, rfl⟩
  | succ n ih =>
    obtain ⟨b, k, hpre, he⟩ := exec_rbit_ok h0 hm
    obtain ⟨c, rest, hcons⟩ := List.exists_cons_of_length_pos (Nat.lt_of_lt_of_le n.succ_pos hlen)
    obtain rfl : c = b := by
      rw [hcons] at hpre
      simpa using hpre
    have hrest : (s.afterCommand .rbit [c] k).misoIn = rest := by simp [State.afterCommand, hcons]
    obtain ⟨htrace, hlines⟩ := ih (s := s.afterCommand .rbit [c] k) ((s.afterCommand_closed (by simp) [c] k).trans h0) hm
      (by rw [hrest]; rw [hcons] at hlen; exact Nat.le_of_succ_le_succ hlen)
    rw [List.replicate_succ, State.issueAll_cons, State.issue_of_exec he, htrace, hlines, hrest, hcons, List.take_succ_cons,
      readWordEvents, readWordEvents, List.flatMap_cons, Lines.replay_append]
    exact ⟨List.append_assoc .., rfl⟩

/-- Settles O41: with enough listed samples both read the same ones, and the events are those of the samples. -/
theorem wordReadEqualsItsBitReads : Obligations.WordReadEqualsItsBitReads := by
  intro n s h0 h1 h2 hlen
  obtain ⟨m, he⟩ := exec_rw_listed h0 h1 h2 hlen
  obtain ⟨htrace, hlines⟩ := issueAll_rbits h0 h2 n.toNat hlen
  exact ⟨_, he, htrace.symm, hlines.symm⟩

/-! ### What a command transfers -/

/-- Settles O42: case by case, the events of a command that succeeds are those of its bits. -/
theorem risingEdgesCountTheBitsTransferred : Obligations.RisingEdgesCountTheBitsTransferred := by
  intro i s t h hok
  obtain ⟨-, st, v, hst, rfl⟩ | ⟨h0, -, -, bs, k, hlen, -, rfl⟩ := exec_cases h
  · exact absurd hok hst
  refine ⟨commandEvents s.cfg s.holdTicks bs i, rfl, ?_⟩
  cases i with
  | sel1 | sel2 | rel1 | rel2 => exact ⟨rfl, rfl, rfl⟩
  | wbit b => exact ⟨rfl, rfl, rfl⟩
  | ww8 w n | ww16 w n | ww32 w n | ww64 w n =>
    exact ⟨(risingEdges_bitWrites _ _).trans (length_sentBits _ _ _),
      (congrArg List.length (mosiBits_bitWrites _ _)).trans (length_sentBits _ _ _), countP_isSample_bitWrites _ _⟩
  | rbit | rw n =>
    exact ⟨(risingEdges_bitReads _ _).trans hlen, congrArg List.length (mosiBits_bitReads _ _),
      (countP_isSample_bitReads _ _).trans hlen⟩
  | close =>
    obtain ⟨_, c2, mo, mi⟩ := s.cfg
    cases c2 <;> cases mo <;> cases mi <;> exact ⟨rfl, rfl, rfl⟩

/-- The events of a bit or word command write no chip-select (R91). -/
theorem isCsWrite_commandEvents {i : Instr} (hi : i.isTransfer = true) (c : Cfg) (h : Ticks) (bs : List Level) :
    (commandEvents c h bs i).all (fun e => !isCsWrite e) = true := by
  cases i with
  | sel1 | sel2 | rel1 | rel2 | close => cases hi
  | wbit _ | rbit | ww8 _ _ | ww16 _ _ | ww32 _ _ | ww64 _ _ | rw _ =>
    simp [commandEvents, writeWordEvents, readWordEvents, writeBitEvents, readBitEvents, pulseEvents, isCsWrite]

/-- An output line that a list of events neither writes nor disposes stays as it is. -/
theorem Lines.replay_out_of_not_written (ln : Lines) {es : List Event} {l : OutLine} (hw : ∀ v, Event.write l v ∉ es)
    (hd : Event.dispose (toLine l) ∉ es) : (ln.replay es).out l = ln.out l := by
  rw [Lines.replay_out_of_writes ln es (v := false) (fun u hu => absurd hu (hw u)) hd, if_neg (hw false)]

/-- Events that write no chip-select and dispose nothing leave both (R91). -/
theorem Lines.replay_chipSelects (ln : Lines) {es : List Event} (hes : es.all (fun e => !isCsWrite e) = true)
    (hd : ∀ l, Event.dispose l ∉ es) : (ln.replay es).cs1 = ln.cs1 ∧ (ln.replay es).cs2 = ln.cs2 := by
  have hw : ∀ e ∈ es, isCsWrite e = false := by simpa using hes
  refine ⟨ln.replay_out_of_not_written (l := .cs1) (fun v hv => ?_) (hd _),
    ln.replay_out_of_not_written (l := .cs2) (fun v hv => ?_) (hd _)⟩
  · exact absurd (hw _ hv) (by simp [isCsWrite])
  · exact absurd (hw _ hv) (by simp [isCsWrite])

/-- What a bit or word command leaves, whatever its response: the chip-selects, `closed`, the configuration; and it writes
no chip-select (R15, R17, R91). -/
theorem exec_transfer {i : Instr} {s t : State} (hi : i.isTransfer = true) (h : exec i s = .next t) :
    (∃ es, t.trace = s.trace ++ es ∧ es.all (fun e => !isCsWrite e) = true) ∧ t.lines.cs1 = s.lines.cs1 ∧
      t.lines.cs2 = s.lines.cs2 ∧ t.closed = s.closed ∧ Kept s t := by
  obtain ⟨-, st, v, -, rfl⟩ | ⟨-, -, -, bs, k, -, -, rfl⟩ := exec_cases h
  · exact ⟨⟨[], (List.append_nil _).symm, rfl⟩, rfl, rfl, rfl, rfl, rfl, rfl, rfl, rfl, rfl⟩
  · have hcs := isCsWrite_commandEvents hi s.cfg s.holdTicks bs
    have hne : i ≠ .close := by rintro rfl; cases hi
    obtain ⟨hcs1, hcs2⟩ := s.lines.replay_chipSelects hcs fun l hl =>
      hne ((dispose_mem_commandEvents s.cfg s.holdTicks bs i l).mp hl).1
    exact ⟨⟨_, rfl, hcs⟩, hcs1, hcs2, s.afterCommand_closed hne bs k, s.afterCommand_kept i bs k⟩

/-- Settles O43: the part of `exec_transfer` about the chip-selects. -/
theorem transfersLeaveTheChipSelects : Obligations.TransfersLeaveTheChipSelects := by
  intro i s t hi h
  obtain ⟨⟨es, htrace, hcs⟩, hcs1, hcs2, -, -⟩ := exec_transfer hi h
  exact ⟨es, htrace, hcs, hcs1, hcs2⟩

end Sys2Proof.Machine
end

section
/-! Noninterference (R15, R16, R35, R91): a command commutes with a change of what it does not look at. `exec` is one
`command` for every instruction, so it is enough that the checks, the error and the body commute. -/

namespace Sys2Proof.Machine

/-! ### Every instruction as a command -/

/-- The bit count a command's checks look at, with its width (R111). -/
def checkedCount : Instr → Option (BitCount × Nat)
  | .ww8 _ n => some (n, 8)
  | .ww16 _ n => some (n, 16)
  | .ww32 _ n => some (n, 32)
  | .ww64 _ n | .rw n => some (n, 64)
  | .sel1 | .sel2 | .rel1 | .rel2 | .wbit _ | .rbit | .close => none

/-- The line a command's checks look at (R110). -/
def checkedLine : Instr → Option Line
  | .sel1 | .rel1 => some .cs1
  | .sel2 | .rel2 => some .cs2
  | .wbit _ => some .mosi
  | .rbit => some .miso
  | .ww8 _ n | .ww16 _ n | .ww32 _ n | .ww64 _ n => lineIfAny n .mosi
  | .rw n => lineIfAny n .miso
  | .close => none

/-- The body of a word write (R84). -/
def State.writeBody (s : State) (w : Word) (n : BitCount) : State :=
  (State.writeLoop n.toNat (s.loadWrite w n)).respondOk 0

/-- The body of RW (R89). -/
def State.readBody (s : State) (n : BitCount) : State :=
  (State.readLoop n.toNat (s.loadRead n)).respondOk (State.readLoop n.toNat (s.loadRead n)).dp.acc

/-- The body of a command, run when its checks pass. -/
def commandBody : Instr → State → State
  | .sel1, s => (s.lineWrite .cs1 false).respondOk 1
  | .sel2, s => (s.lineWrite .cs2 false).respondOk 2
  | .rel1, s => (s.lineWrite .cs1 true).respondOk 0
  | .rel2, s => (s.lineWrite .cs2 true).respondOk 0
  | .wbit b, s => (State.writeBit { s with dp := { s.dp with wdata := bitWord b } } (bitOut (bitWord b) 0)).respondOk 0
  | .rbit, s => s.readBit.respondOk (bitWord s.pulse.nextSample)
  | .ww8 w n, s => s.writeBody (w.setWidth 64) n
  | .ww16 w n, s => s.writeBody (w.setWidth 64) n
  | .ww32 w n, s => s.writeBody (w.setWidth 64) n
  | .ww64 w n, s => s.writeBody w n
  | .rw n, s => s.readBody n
  | .close, s => State.respondOk { s.disposeAll with closed := true } 0

theorem exec_eq_command (i : Instr) (s : State) :
    exec i s = s.command (checkedCount i) (checkedLine i) (commandBody i) := by
  cases i <;> rfl

/-! ### Commuting with a change -/

/-- A change of the state that no check looks at and that an error leaves alone. -/
structure Unchecked (f : State → State) : Prop where
  closed : ∀ s, (f s).closed = s.closed
  cfg : ∀ s, (f s).cfg = s.cfg
  raise : ∀ s st v, (f s).raise st v = f (s.raise st v)

theorem Unchecked.firstError {f : State → State} (hf : Unchecked f) (s : State) (c : Option (BitCount × Nat))
    (l : Option Line) : (f s).firstError c l = s.firstError c l := by
  simp only [State.firstError, State.operandError, State.missingLine, hf.closed, hf.cfg]

/-- A command commutes with an unchecked change that its body commutes with. -/
theorem exec_commute {f : State → State} (hf : Unchecked f) {i : Instr} {s : State}
    (hbody : commandBody i (f s) = f (commandBody i s)) : ∃ t, exec i s = .next t ∧ exec i (f s) = .next (f t) := by
  rw [exec_eq_command, exec_eq_command]
  cases he : s.firstError (checkedCount i) (checkedLine i) with
  | none => exact ⟨_, State.command_ok he, by rw [State.command_ok (by rw [hf.firstError, he]), hbody]⟩
  | some r => exact ⟨_, State.command_error he, by rw [State.command_error (by rw [hf.firstError, he]), hf.raise]⟩

theorem State.writeLoop_commute {f : State → State} (hf : ∀ s, (f s).writeStep = f s.writeStep) (k : Nat) (s : State) :
    State.writeLoop k (f s) = f (State.writeLoop k s) := by
  induction k generalizing s with
  | zero => rfl
  | succ k ih => rw [State.writeLoop, hf, ih, State.writeLoop]

theorem State.readLoop_commute {f : State → State} (hf : ∀ s, (f s).readStep = f s.readStep) (k : Nat) (s : State) :
    State.readLoop k (f s) = f (State.readLoop k s) := by
  induction k generalizing s with
  | zero => rfl
  | succ k ih => rw [State.readLoop, hf, ih, State.readLoop]

/-! ### The chip-selects (R15, R91) -/

/-- The same engine with another state of CS1 and CS2. -/
def State.setChipSelects (c1 c2 : OutState) (s : State) : State := { s with lines := { s.lines with cs1 := c1, cs2 := c2 } }

theorem State.writeBody_setChipSelects (c1 c2 : OutState) (s : State) (w : Word) (n : BitCount) :
    (s.setChipSelects c1 c2).writeBody w n = (s.writeBody w n).setChipSelects c1 c2 :=
  congrArg (State.respondOk · 0)
    (State.writeLoop_commute (f := State.setChipSelects c1 c2) (fun _ => rfl) n.toNat (s.loadWrite w n))

theorem State.readBody_setChipSelects (c1 c2 : OutState) (s : State) (n : BitCount) :
    (s.setChipSelects c1 c2).readBody n = (s.readBody n).setChipSelects c1 c2 :=
  congrArg (fun t : State => t.respondOk t.dp.acc)
    (State.readLoop_commute (f := State.setChipSelects c1 c2) (fun _ => rfl) n.toNat (s.loadRead n))

/-- Settles O44: the body of a bit or word command touches and reads neither chip-select. -/
theorem transfersDoNotDependOnTheChipSelects : Obligations.TransfersDoNotDependOnTheChipSelects := by
  intro i s c1 c2 hi
  refine exec_commute (f := State.setChipSelects c1 c2) ⟨fun _ => rfl, fun _ => rfl, fun _ _ _ => rfl⟩ ?_
  cases i with
  | sel1 | sel2 | rel1 | rel2 | close => cases hi
  | wbit _ | rbit => rfl
  | ww8 _ _ | ww16 _ _ | ww32 _ _ | ww64 _ _ => exact s.writeBody_setChipSelects c1 c2 _ _
  | rw _ => exact s.readBody_setChipSelects c1 c2 _

/-! ### The environment's answers (R35) -/

/-- The same engine with other answers of the environment to come. -/
def State.setMisoIn (ms : List Level) (s : State) : State := { s with misoIn := ms }

theorem State.writeBody_setMisoIn (ms : List Level) (s : State) (w : Word) (n : BitCount) :
    (s.setMisoIn ms).writeBody w n = (s.writeBody w n).setMisoIn ms :=
  congrArg (State.respondOk · 0)
    (State.writeLoop_commute (f := State.setMisoIn ms) (fun _ => rfl) n.toNat (s.loadWrite w n))

theorem State.disposeAll_setMisoIn (ms : List Level) (s : State) :
    (s.setMisoIn ms).disposeAll = s.disposeAll.setMisoIn ms := by
  simp only [State.disposeAll_eq, State.emitAll_eq, State.setMisoIn]

/-- Settles O45: only the bodies of RBIT and RW take a sample. -/
theorem onlyReadsLookAtMiso : Obligations.OnlyReadsLookAtMiso := by
  intro i s ms hi
  refine exec_commute (f := State.setMisoIn ms) ⟨fun _ => rfl, fun _ => rfl, fun _ _ _ => rfl⟩ ?_
  cases i with
  | rbit | rw _ => cases hi
  | sel1 | sel2 | rel1 | rel2 | wbit _ => rfl
  | ww8 _ _ | ww16 _ _ | ww32 _ _ | ww64 _ _ => exact s.writeBody_setMisoIn ms _ _
  | close => exact congrArg (fun t : State => State.respondOk { t with closed := true } 0) (s.disposeAll_setMisoIn ms)

/-! ### The data path (R16) -/

/-- The same engine with another word in WDATA, which a read leaves alone. -/
def State.setWdata (w : Word) (s : State) : State := { s with dp := { s.dp with wdata := w } }

/-- The same engine with another word in ACC, which a write leaves alone. -/
def State.setAcc (w : Word) (s : State) : State := { s with dp := { s.dp with acc := w } }

/-- A write loads every register but ACC, and answers with none of them. -/
theorem State.writeBody_dp (s : State) (d : DataPath) (w : Word) (n : BitCount) :
    State.writeBody { s with dp := d } w n = s.writeBody w n := by
  have hloop := State.writeLoop_commute (f := State.setAcc d.acc) (fun _ => rfl) n.toNat (s.loadWrite w n)
  exact (congrArg (State.respondOk · 0) hloop :)

/-- A read loads every register but WDATA, and answers with ACC, which it has loaded. -/
theorem State.readBody_dp (s : State) (d : DataPath) (n : BitCount) :
    State.readBody { s with dp := d } n = s.readBody n := by
  have hloop := State.readLoop_commute (f := State.setWdata d.wdata) (fun _ => rfl) n.toNat (s.loadRead n)
  exact (congrArg (fun t : State => t.respondOk t.dp.acc) hloop :)

theorem State.disposeAll_dp (s : State) (d : DataPath) :
    State.disposeAll { s with dp := d } = { s.disposeAll with dp := d } := by
  simp only [State.disposeAll_eq, State.emitAll_eq]

/-- A command that passes its checks leads to the same state from any contents of the data path. -/
theorem commandBody_dp (i : Instr) (s : State) (d : DataPath) : commandBody i { s with dp := d } = commandBody i s := by
  cases i with
  | sel1 | sel2 | rel1 | rel2 | wbit _ | rbit => rfl
  | ww8 _ _ | ww16 _ _ | ww32 _ _ | ww64 _ _ => exact s.writeBody_dp d _ _
  | rw _ => exact s.readBody_dp d _
  | close =>
    rw [commandBody, s.disposeAll_dp d]
    rfl

/-- Settles O46: a command that passes its checks ends in the same state, one that does not keeps the contents it finds. -/
theorem dataPathHoldsNothingACommandReads : Obligations.DataPathHoldsNothingACommandReads := by
  intro i s d
  rw [exec_eq_command, exec_eq_command]
  cases he : s.firstError (checkedCount i) (checkedLine i) with
  | none => exact ⟨_, _, State.command_ok he, State.command_ok (s := { s with dp := d }) he, by rw [commandBody_dp]⟩
  | some r => exact ⟨_, _, State.command_error he, State.command_error (s := { s with dp := d }) he, rfl⟩

end Sys2Proof.Machine
end

section
/-! What the invariant says of the trace and of the lines (R11, R22, R46, R75, R135, R136, R145). -/

namespace Sys2Proof.Machine

/-- Before each event of the trace the monitor stood on the lines the earlier events had made, and allowed it. -/
theorem Inv.allows_at {s : State} (h : Inv s) {before after : List Event} {e : Event} (ht : s.trace = before ++ e :: after) :
    ∃ m : Monitor, (Monitor.start s.cfg s.lines.epoch).run s.holdTicks before = some m ∧ m.allows s.holdTicks e = true := by
  obtain ⟨held, hrun⟩ := h.bus
  rw [ht] at hrun
  obtain ⟨m, hbefore, hrest⟩ := Monitor.run_split hrun
  obtain ⟨m1, hnext, -⟩ := Monitor.run_cons hrest
  exact ⟨m, hbefore, (Monitor.next_some hnext).1⟩

/-- After a list of events from reset a line is open when it is present and not disposed. -/
theorem Monitor.run_start_isOpen {h : Ticks} {c : Cfg} {k : Nat} {es : List Event} {m : Monitor}
    (hrun : (Monitor.start c k).run h es = some m) (l : Line) :
    m.lines.isOpen l = (c.present l && !decide (Event.dispose l ∈ es)) := by
  rw [Monitor.run_lines hrun, Lines.replay_isOpen]
  exact congrArg (· && _) (Lines.atReset_isOpen c k l)

/-- An event of the trace touches only a line that is present and not disposed before (R31, R46). -/
theorem Inv.touches_open {s : State} (h : Inv s) {before after : List Event} {e : Event} {l : Line}
    (ht : s.trace = before ++ e :: after) (hl : eventLine e = some l) :
    s.cfg.present l = true ∧ Event.dispose l ∉ before := by
  obtain ⟨m, hrun, ha⟩ := h.allows_at ht
  have hopen := Monitor.allows_open ha hl
  rw [Monitor.run_start_isOpen hrun] at hopen
  simpa using hopen

/-- Settles O55: an event that touches the line comes before its dispose. -/
theorem noEventTouchesADisposedLine : Obligations.NoEventTouchesADisposedLine := by
  intro s l before after h ht e he hl
  obtain ⟨mid, rest, rfl⟩ := List.append_of_mem he
  rw [← List.append_assoc] at ht
  exact (h.touches_open ht hl).2 (by simp)

/-- Settles O53: the output enable is the open bit and the driven bit, which the trace decides; a line written is present. -/
theorem outputEnableFollowsTheTrace : Obligations.OutputEnableFollowsTheTrace := by
  intro s l h
  have hopen : (s.lines.out l).isOpen = (s.cfg.present (toLine l) && !decide (Event.dispose (toLine l) ∈ s.trace)) := by
    rw [← Lines.isOpen_toLine, h.lines_eq, Lines.replay_isOpen, Lines.atReset_isOpen]
  have hdriven : (s.lines.out l).driven = true ↔ ∃ v, Event.write l v ∈ s.trace := by
    rw [h.lines_eq, Lines.replay_driven, Lines.atReset_out_driven]
    simp
  have hpresent : (∃ v, Event.write l v ∈ s.trace) → s.cfg.present (toLine l) = true := by
    rintro ⟨v, hv⟩
    obtain ⟨before, after, ht⟩ := List.append_of_mem hv
    exact (h.touches_open ht rfl).1
  simp only [State.outEnable, hopen, Bool.and_eq_true, hdriven, Bool.not_eq_true', decide_eq_false_iff_not]
  tauto

/-- Settles O54: the write sets the level, and nothing after it in the trace touches it. -/
theorem levelIsTheLastOneWritten : Obligations.LevelIsTheLastOneWritten := by
  intro s l v before after h ht hw hd
  rw [h.lines_eq, ht, Lines.replay_append, Lines.replay_level _ _ _ hw hd, Lines.replay_append, Lines.replay_cons,
    Lines.replay_nil, Lines.apply_write_out_self]

/-! ### The clock -/

/-- A rising edge is still owed its hold: SCLK is high and the hold of this high phase has not come. -/
def Monitor.owesHold (m : Monitor) : Nat := if m.lines.sclkHigh && !m.held then 1 else 0

/-- Each event allowed keeps the account of rising edges and holds (R75, R77). -/
theorem Monitor.next_owesHold {h : Ticks} {m m' : Monitor} {e : Event} (hn : m.next h e = some m') :
    m.owesHold + risingEdges [e] = m'.owesHold + holdCount [e] := by
  have ha := (Monitor.next_some hn).1
  obtain rfl : m.after e = m' := Option.some.inj ((Monitor.next_of_allows ha).symm.trans hn)
  cases e with
  | write l v =>
    cases l with
    | cs1 | cs2 | mosi => rfl
    | sclk =>
      cases v with
      | true =>
        obtain ⟨⟨hopen, hdriven⟩, hlevel⟩ : (m.lines.sclk.isOpen = true ∧ m.lines.sclk.driven = true) ∧
            m.lines.sclk.level = false := by simpa [Monitor.allows] using ha
        simp [Monitor.owesHold, Monitor.after, Lines.sclkHigh, Lines.apply, Lines.setOut, Lines.out, hopen, hlevel,
          risingEdges, holdCount]
      | false =>
        have hpaid : m.owesHold = 0 := by
          obtain ⟨-, hdriven | ⟨-, hheld⟩⟩ : m.lines.sclk.isOpen = true ∧
              (m.lines.sclk.driven = false ∨ m.lines.sclk.level = true ∧ m.held = true) := by
            simpa [Monitor.allows] using ha
          · simp [Monitor.owesHold, Lines.sclkHigh, hdriven]
          · simp [Monitor.owesHold, hheld]
        rw [hpaid]
        simp [Monitor.owesHold, Monitor.after, Lines.sclkHigh, Lines.apply, Lines.setOut, Lines.out, risingEdges, holdCount]
  | sample b => rfl
  | hold t =>
    obtain ⟨⟨-, hhigh⟩, hheld⟩ : (t = h ∧ m.lines.sclkHigh = true) ∧ m.held = false := by simpa [Monitor.allows] using ha
    simp [Monitor.owesHold, Monitor.after, hhigh, hheld, risingEdges, holdCount]
  | dispose l =>
    obtain ⟨-, hlow⟩ : m.lines.isOpen l = true ∧ m.lines.sclkHigh = false := by simpa [Monitor.allows] using ha
    have hlow' : (m.after (.dispose l)).lines.sclkHigh = false := Lines.sclkHigh_apply_dispose hlow l
    rw [Monitor.owesHold, Monitor.owesHold, hlow, hlow']
    rfl

/-- From any point on, as many rising edges are owed or come as holds come or are owed at the end. -/
theorem Monitor.run_owesHold {h : Ticks} {m m' : Monitor} {es : List Event} (hrun : m.run h es = some m') :
    m.owesHold + risingEdges es = m'.owesHold + holdCount es := by
  induction es generalizing m with
  | nil =>
    obtain rfl : m = m' := Option.some.inj hrun
    rfl
  | cons e es ih =>
    obtain ⟨m1, hnext, hrest⟩ := Monitor.run_cons hrun
    have hstep := Monitor.next_owesHold hnext
    have hrec := ih hrest
    have hr : risingEdges (e :: es) = risingEdges [e] + risingEdges es := List.countP_append (l₁ := [e])
    have hh : holdCount (e :: es) = holdCount [e] + holdCount es := List.countP_append (l₁ := [e])
    omega

/-- At a command boundary SCLK is not high (R79). -/
theorem Inv.sclkHigh_eq_false {s : State} (h : Inv s) (ha : s.aborting = none) : s.lines.sclkHigh = false := by
  rcases Bool.eq_false_or_eq_true s.initDone with hi | hi
  · rcases Bool.eq_false_or_eq_true s.closed with h0 | h0
    · have hopen : s.lines.sclk.isOpen = false := by
        have hs := h.opened ha .sclk
        rw [h0, Bool.not_true, Bool.and_false] at hs
        exact hs
      rw [Lines.sclkHigh, hopen]
      rfl
    · exact (h.calm hi ha h0).sclkHigh_eq_false
  · rw [h.lines_eq, (h.unborn hi).1]
    rfl

/-- Settles O56: no hold is owed at reset nor at a command boundary; and the monitor allows no hold of another length. -/
theorem everyRisingEdgeHasItsHold : Obligations.EveryRisingEdgeHasItsHold := by
  refine fun s h ha => ⟨?_, fun t ht => ?_⟩
  · obtain ⟨held, hrun⟩ := h.bus
    have hstart : (Monitor.start s.cfg s.lines.epoch).owesHold = 0 := rfl
    have hend : Monitor.owesHold { lines := s.lines, held := held } = 0 := by
      rw [Monitor.owesHold, h.sclkHigh_eq_false ha]
      rfl
    have hcount := Monitor.run_owesHold hrun
    rw [hstart, hend] at hcount
    omega
  · obtain ⟨before, after, hsplit⟩ := List.append_of_mem ht
    obtain ⟨m, -, hallows⟩ := h.allows_at hsplit
    simp only [Monitor.allows, Bool.and_eq_true, beq_iff_eq] at hallows
    exact hallows.1.1

/-- While SCLK is high only a write of it can change that: no line is disposed then (R145). -/
theorem Monitor.run_sclkHigh {h : Ticks} {m m' : Monitor} {es : List Event} (hrun : m.run h es = some m')
    (hw : ∀ u, Event.write .sclk u ∉ es) (hhigh : m.lines.sclkHigh = true) : m'.lines.sclkHigh = true := by
  induction es generalizing m with
  | nil =>
    obtain rfl : m = m' := Option.some.inj hrun
    exact hhigh
  | cons e es ih =>
    obtain ⟨m1, hnext, hrest⟩ := Monitor.run_cons hrun
    obtain ⟨ha, hlines⟩ := Monitor.next_some hnext
    refine ih hrest (fun u hu => hw u (List.mem_cons_of_mem _ hu)) ?_
    rw [hlines]
    cases e with
    | write l v =>
      cases l with
      | sclk => exact absurd List.mem_cons_self (hw v)
      | cs1 | cs2 | mosi => exact hhigh
    | sample b => exact hhigh
    | hold t => exact hhigh
    | dispose l => simp [Monitor.allows, hhigh] at ha

/-- A data line, a chip-select and MISO are touched only while SCLK is not high (R135, R136, R145). -/
theorem Monitor.sclkLow_of_allows {h : Ticks} {m : Monitor} {e : Event} (ha : m.allows h e = true)
    (he : isCsWrite e = true ∨ isSample e = true ∨ ∃ b, e = .write .mosi b) : m.lines.sclkHigh = false := by
  have hguard : ∀ {b : Bool}, (b && !m.lines.sclkHigh) = true → m.lines.sclkHigh = false := by simp
  cases e with
  | write l v =>
    cases l with
    | sclk => simp [isCsWrite, isSample] at he
    | cs1 | cs2 | mosi => exact hguard ha
  | sample b => exact hguard ha
  | hold t => simp [isCsWrite, isSample] at he
  | dispose l => simp [isCsWrite, isSample] at he

/-- Settles O57: had the last write of SCLK been a rise, SCLK would still be high at the event. -/
theorem dataMovesOnlyWhileTheClockIsLow : Obligations.DataMovesOnlyWhileTheClockIsLow := by
  intro s before between after v e h ht hw he
  obtain ⟨m, hrun, ha⟩ := h.allows_at (before := before ++ [Event.write .sclk v] ++ between) (after := after) (e := e)
    (by rw [ht]; simp)
  have hlow := Monitor.sclkLow_of_allows ha he
  obtain ⟨m2, hrun2, hbetween⟩ := Monitor.run_split hrun
  obtain ⟨m1, -, hwrite⟩ := Monitor.run_split hrun2
  cases v with
  | false => rfl
  | true =>
    have hhigh : m2.lines.sclkHigh = true := by
      obtain ⟨_, hnext, hnil⟩ := Monitor.run_cons hwrite
      obtain ⟨hallows, hlines⟩ := Monitor.next_some hnext
      obtain rfl := Option.some.inj hnil
      simp only [Monitor.allows, Bool.and_eq_true] at hallows
      rw [hlines]
      simp [Lines.sclkHigh, Lines.apply, Lines.setOut, Lines.out, hallows.1.1]
    exact absurd ((Monitor.run_sclkHigh hbetween hw hhigh).symm.trans hlow) (by decide)

end Sys2Proof.Machine
end

section
/-! The phase (R14): it is read off `closed` and the chip-selects, so only the commands that move those change it. -/

namespace Sys2Proof.Machine

theorem State.phase_congr {s t : State} (hi : t.initDone = s.initDone) (hc : t.closed = s.closed) (hcfg : t.cfg = s.cfg)
    (h1 : t.lines.cs1 = s.lines.cs1) (h2 : t.lines.cs2 = s.lines.cs2) : t.phase = s.phase := by
  simp only [State.phase, hi, hc, hcfg, h1, h2]

theorem chipSelectPhase_cases (c : Cfg) (ln : Lines) : chipSelectPhase c ln = .idle ∨ chipSelectPhase c ln = .selected := by
  rw [chipSelectPhase]
  split
  · exact .inr rfl
  · exact .inl rfl

/-- An open engine after INIT is Idle or Selected. -/
theorem State.phase_of_open {s : State} (hi : s.initDone = true) (h0 : s.closed = false) :
    s.phase = .idle ∨ s.phase = .selected := by
  rw [State.phase_eq_chipSelectPhase hi h0]
  exact chipSelectPhase_cases _ _

theorem chipSelectPhase_eq_idle_iff (c : Cfg) (ln : Lines) :
    chipSelectPhase c ln = .idle ↔ ln.cs1.level = true ∧ (c.hasCs2 = true → ln.cs2.level = true) := by
  simp [chipSelectPhase]

/-- Idle means that INIT has run, that the engine is open, and that no present chip-select is low (R14). -/
theorem State.phase_eq_idle_iff (s : State) : s.phase = .idle ↔
    s.initDone = true ∧ s.closed = false ∧ s.lines.cs1.level = true ∧ (s.cfg.hasCs2 = true → s.lines.cs2.level = true) := by
  rw [← chipSelectPhase_eq_idle_iff]
  rcases Bool.eq_false_or_eq_true s.initDone with hi | hi
  · rcases Bool.eq_false_or_eq_true s.closed with h0 | h0
    · simp [State.phase_closed hi h0, h0]
    · simp [State.phase_eq_chipSelectPhase hi h0, hi, h0]
  · simp [State.phase, hi]

/-- Releasing a chip-select of an idle engine leaves it idle. -/
theorem chipSelectPhase_release {c : Cfg} {ln : Lines} (h : chipSelectPhase c ln = .idle) {l : OutLine}
    (hl : l = .cs1 ∨ l = .cs2) : chipSelectPhase c (ln.apply (.write l true)) = .idle := by
  rw [chipSelectPhase_eq_idle_iff] at h ⊢
  rcases hl with rfl | rfl
  · exact ⟨rfl, h.2⟩
  · exact ⟨h.1, fun _ => rfl⟩

/-- The phase after a chip-select command that succeeds. -/
theorem phase_after_chipSelect {i : Instr} {l : OutLine} {v : Level} {r : Word} {s t : State}
    (hi : s.initDone = true) (h0 : s.closed = false) (hline : lacksLine s.cfg i = false) (he : exec i s = .next t)
    (h : chipSelectParts i = some (l, v, r)) : t.phase = chipSelectPhase s.cfg (s.lines.apply (.write l v)) := by
  obtain ⟨t', he', -, -, -, -, -, -, -, hphase⟩ := drivesOnly_of_chipSelectParts h h0 hline rfl
  cases he.symm.trans he'
  exact hphase hi

theorem phase_after_select {i : Instr} {s t : State} (hi : s.initDone = true) (h0 : s.closed = false)
    (hline : lacksLine s.cfg i = false) (he : exec i s = .next t) (hsel : i = .sel1 ∨ i = .sel2) : t.phase = .selected := by
  rcases hsel with rfl | rfl
  · exact (phase_after_chipSelect hi h0 hline he rfl).trans (chipSelectPhase_cs1_low _ _)
  · have hc : s.cfg.hasCs2 = true := by simpa [lacksLine] using hline
    exact (phase_after_chipSelect hi h0 hline he rfl).trans (chipSelectPhase_cs2_low hc _)

/-- A release leaves an engine that was idle so, and any other in one of the two phases. -/
theorem phase_after_release {i : Instr} {s t : State} (hi : s.initDone = true) (h0 : s.closed = false)
    (hline : lacksLine s.cfg i = false) (he : exec i s = .next t) (hrel : i = .rel1 ∨ i = .rel2) :
    (s.phase = .idle → t.phase = .idle) ∧ (t.phase = .idle ∨ t.phase = .selected) := by
  rw [State.phase_eq_chipSelectPhase hi h0]
  rcases hrel with rfl | rfl
  · rw [phase_after_chipSelect hi h0 hline he rfl]
    exact ⟨fun hidle => chipSelectPhase_release hidle (.inl rfl), chipSelectPhase_cases _ _⟩
  · rw [phase_after_chipSelect hi h0 hline he rfl]
    exact ⟨fun hidle => chipSelectPhase_release hidle (.inr rfl), chipSelectPhase_cases _ _⟩

/-- What a command can do to the phase after INIT (R14). -/
theorem exec_phase {i : Instr} {s t : State} (hi : s.initDone = true) (h : exec i s = .next t) :
    t.phase = s.phase ∨
    (s.phase = .idle ∧ t.phase = .selected ∧ (i = .sel1 ∨ i = .sel2)) ∨
    (s.phase = .selected ∧ t.phase = .idle ∧ (i = .rel1 ∨ i = .rel2)) ∨
    ((s.phase = .idle ∨ s.phase = .selected) ∧ t.phase = .closed ∧ i = .close) := by
  by_cases hsame : t.phase = s.phase
  · exact .inl hsame
  obtain ⟨-, st, v, -, rfl⟩ | ⟨h0, -, hline, -⟩ := exec_cases h
  · exact absurd rfl hsame
  have hs := State.phase_of_open hi h0
  cases i with
  | wbit _ | rbit | ww8 _ _ | ww16 _ _ | ww32 _ _ | ww64 _ _ | rw _ =>
    obtain ⟨-, hcs1, hcs2, hclosed, hcfg, -, hinit, -⟩ := exec_transfer rfl h
    exact absurd (State.phase_congr hinit hclosed hcfg hcs1 hcs2) hsame
  | sel1 | sel2 =>
    have ht := phase_after_select hi h0 hline h (by simp)
    exact .inr (.inl ⟨hs.resolve_right fun hs => hsame (ht.trans hs.symm), ht, by simp⟩)
  | rel1 | rel2 =>
    obtain ⟨hidle, ht⟩ := phase_after_release hi h0 hline h (by simp)
    have hs' := hs.resolve_left fun hs => hsame ((hidle hs).trans hs.symm)
    exact .inr (.inr (.inl ⟨hs', ht.resolve_right fun ht => hsame (ht.trans hs'.symm), by simp⟩))
  | close =>
    obtain ⟨k, he⟩ := exec_close_ok h0
    cases h.symm.trans he
    exact .inr (.inr (.inr ⟨hs, State.phase_closed hi (s.afterCommand_close_closed [] k), rfl⟩))

/-- Settles O50: a step that is no reset, no INIT and no cut runs a command or keeps what the phase is read off. -/
theorem phaseChangesOnlyByTheNamedCommands : Obligations.PhaseChangesOnlyByTheNamedCommands := by
  intro s t h hstep
  obtain ⟨p, u, hreset, rfl⟩ | ⟨k, p, w, u, -, hw, rfl⟩ | ⟨hi, rfl⟩ | ⟨rsp, delivered, rfl⟩ | ⟨w, htakes, hw⟩ :=
    step_reset_cases hstep
  · exact .inr (.inr (.inl ⟨p, hreset, rfl⟩))
  · exact .inr (.inl (by simp [State.cutShort]))
  · refine .inr (.inr (.inr (.inl ⟨by simp [State.phase, hi], ?_⟩)))
    rw [State.runInit_eq_replay]
    exact phase_idle_of_init rfl rfl (h.unborn hi).2.1
  · exact .inl rfl
  · have hi : s.initDone = true := (State.cmdReady_iff.mp htakes.1).1
    cases hd : decode w with
    | reserved op =>
      obtain rfl : Answered s.popInput .illegal 0 = t := by
        rw [runWord_reserved hd] at hw
        injection hw
      exact .inl rfl
    | instr i =>
      rw [runWord_instr hd] at hw
      exact (exec_phase (s := s.popInput) hi hw).imp_right fun hnamed => .inr (.inr (.inr ⟨w, i, htakes, hd, hnamed⟩))

end Sys2Proof.Machine
end

section
/-! The host's scopes (R61, R99, R141): a WITH around transfers, and a well-scoped sequence. -/

namespace Sys2Proof.Machine

/-! ### WITH -/

/-- A body of bit and word commands, stopped at an error or not, appends no write of a chip-select and leaves `closed` and
the configuration (R61, R91). -/
theorem State.issueBody_transfers (s : State) {body : List Instr} (hbody : ∀ i ∈ body, i.isTransfer = true) :
    (∃ mid, (s.issueBody body).trace = s.trace ++ mid ∧ mid.all (fun e => !isCsWrite e) = true) ∧
      (s.issueBody body).closed = s.closed ∧ (s.issueBody body).cfg = s.cfg := by
  induction body generalizing s with
  | nil => exact ⟨⟨[], (List.append_nil _).symm, rfl⟩, rfl, rfl⟩
  | cons i is ih =>
    obtain ⟨t, he⟩ := exec_total i s
    obtain ⟨⟨es, htrace, hes⟩, -, -, hclosed, hcfg, -⟩ := exec_transfer (hbody i List.mem_cons_self) he
    rw [State.issueBody, State.issue_of_exec he]
    split
    · obtain ⟨⟨mid, htrace', hmid⟩, hclosed', hcfg'⟩ := ih t fun j hj => hbody j (List.mem_cons_of_mem i hj)
      refine ⟨⟨es ++ mid, ?_, ?_⟩, hclosed'.trans hclosed, hcfg'.trans hcfg⟩
      · rw [htrace', htrace, List.append_assoc]
      · rw [List.all_append, hes, hmid, Bool.and_self]
    · exact ⟨⟨es, htrace, hes⟩, hclosed, hcfg⟩

/-- A WITH around transfers whose select succeeds: the select, events that write no chip-select, the release (R61). -/
theorem State.runWith_releases {s : State} {sel rel : Instr} {l : OutLine} {r r' : Word} {body : List Instr}
    (hsel : chipSelectParts sel = some (l, false, r)) (hrel : chipSelectParts rel = some (l, true, r'))
    (h0 : s.closed = false) (hsel1 : lacksLine s.cfg sel = false) (hrel1 : lacksLine s.cfg rel = false)
    (hbody : ∀ i ∈ body, i.isTransfer = true) :
    ∃ mid, (s.runWith sel rel body).trace = s.trace ++ [.write l false] ++ mid ++ [.write l true] ∧
      mid.all (fun e => !isCsWrite e) = true ∧ DrivenTo (s.runWith sel rel body) l true ∧
      (s.runWith sel rel body).rspStatus = .ok := by
  obtain ⟨k, he⟩ := exec_chipSelectParts_ok hsel h0 hsel1
  have hrun : s.runWith sel rel body = ((s.issue sel).issueBody body).issue rel :=
    if_pos (by rw [State.issue_of_exec he]; rfl)
  obtain ⟨⟨mid, htrace, hmid⟩, hclosed, hcfg⟩ := (s.issue sel).issueBody_transfers hbody
  rw [State.issue_of_exec he] at hrun htrace hclosed hcfg
  obtain ⟨k', he'⟩ := exec_chipSelectParts_ok hrel (hclosed.trans h0) (by rw [hcfg]; exact hrel1)
  rw [State.issue_of_exec he'] at hrun
  rw [hrun]
  exact ⟨mid, congrArg (· ++ _) htrace, hmid, by simp [DrivenTo], rfl⟩

/-- Settles O58: the select succeeds unless its line is absent, and the release of an open engine then does too. -/
theorem withScopeReleasesExactlyOnce : Obligations.WithScopeReleasesExactlyOnce := by
  refine fun s body h0 hbody => ⟨?_, fun hc => ?_, fun hc => ?_⟩
  · exact State.runWith_releases (l := .cs1) rfl rfl h0 rfl rfl hbody
  · exact State.runWith_releases (l := .cs2) rfl rfl h0 (by simp [lacksLine, hc]) (by simp [lacksLine, hc]) hbody
  · have he : s.issue .sel2 = Answered s .unsupported 2 :=
      State.issue_of_exec (exec_unsupported h0 rfl (by simp [lacksLine, hc]))
    rw [State.runWith, he]
    exact if_neg (by simp [Answered, State.rspStatus])

/-! ### Well-scoped sequences -/

/-- What the state of the scopes says of the engine: which chip-select is low, or that CLOSE has disposed them. -/
def State.InScope (s : State) : ScopeState → Prop
  | .free => s.closed = false ∧ s.lines.cs1.level = true ∧ (s.cfg.hasCs2 = true → s.lines.cs2.level = true)
  | .held1 _ => s.closed = false ∧ s.lines.cs1.level = false ∧ (s.cfg.hasCs2 = true → s.lines.cs2.level = true)
  | .held2 _ => s.closed = false ∧ s.cfg.hasCs2 = true ∧ s.lines.cs1.level = true ∧ s.lines.cs2.level = false
  | .done => s.closed = true ∧ s.lines.cs1.isOpen = false
  | .bad => False

/-- A bit or word command moves nothing that the scopes describe. -/
theorem State.InScope.transfer {q : ScopeState} {i : Instr} {s t : State} (hq : s.InScope q)
    (hi : i.isTransfer = true) (he : exec i s = .next t) : t.InScope q := by
  obtain ⟨-, hcs1, hcs2, hclosed, hcfg, -⟩ := exec_transfer hi he
  cases q with
  | bad => exact hq
  | free | held1 _ | held2 _ | done => simpa only [State.InScope, hcs1, hcs2, hclosed, hcfg] using hq

theorem scopeNext_held1 (c used : Bool) (i : Instr) : ScopeState.next c (.held1 used) i =
    if i.isTransfer then .held1 true else if i = .rel1 then .free else .bad := rfl

theorem scopeNext_held2 (c used : Bool) (i : Instr) : ScopeState.next c (.held2 used) i =
    if i.isTransfer then .held2 true else if i = .rel2 then .free else .bad := rfl

/-- A command that keeps to the scopes leads where the scopes say (R141). -/
theorem State.InScope.next {q : ScopeState} {i : Instr} {s t : State} (hq : s.InScope q)
    (hnext : q.next s.cfg.hasCs2 i ≠ .bad) (he : exec i s = .next t) : t.InScope (q.next s.cfg.hasCs2 i) := by
  cases q with
  | bad => exact hq.elim
  | done => exact absurd rfl hnext
  | free =>
    obtain ⟨h0, hcs1, hcs2⟩ := hq
    cases i with
    | sel1 =>
      obtain ⟨k, hsel⟩ := exec_chipSelectParts_ok (i := .sel1) rfl h0 rfl
      cases he.symm.trans hsel
      exact ⟨h0, rfl, hcs2⟩
    | sel2 =>
      rw [ScopeState.next]
      split
      · next hc =>
        obtain ⟨k, hsel⟩ := exec_chipSelectParts_ok (i := .sel2) rfl h0 (by simp [lacksLine, hc])
        cases he.symm.trans hsel
        exact ⟨h0, hc, hcs1, rfl⟩
      · next hc =>
        cases he.symm.trans (exec_unsupported h0 rfl (by simpa [lacksLine] using hc))
        exact ⟨h0, hcs1, hcs2⟩
    | close =>
      obtain ⟨k, hclose⟩ := exec_close_ok h0
      cases he.symm.trans hclose
      refine ⟨s.afterCommand_close_closed [] k, (s.lines.replay_closeEvents_isOpen s.cfg .cs1).trans ?_⟩
      rw [present_cs1, Bool.not_true, Bool.and_false]
    | rel1 | rel2 | wbit _ | rbit | ww8 _ _ | ww16 _ _ | ww32 _ _ | ww64 _ _ | rw _ => exact absurd rfl hnext
  | held1 used =>
    rw [scopeNext_held1] at hnext ⊢
    split
    · next hi => exact hq.transfer hi he
    · next hi =>
      rw [if_neg hi] at hnext
      obtain rfl : i = .rel1 := by_contra fun hne => hnext (if_neg hne)
      obtain ⟨h0, -, hcs2⟩ := hq
      obtain ⟨k, hrel⟩ := exec_chipSelectParts_ok (i := .rel1) rfl h0 rfl
      cases he.symm.trans hrel
      exact ⟨h0, rfl, hcs2⟩
  | held2 used =>
    rw [scopeNext_held2] at hnext ⊢
    split
    · next hi => exact hq.transfer hi he
    · next hi =>
      rw [if_neg hi] at hnext
      obtain rfl : i = .rel2 := by_contra fun hne => hnext (if_neg hne)
      obtain ⟨h0, hc, hcs1, -⟩ := hq
      obtain ⟨k, hrel⟩ := exec_chipSelectParts_ok (i := .rel2) rfl h0 (by simp [lacksLine, hc])
      cases he.symm.trans hrel
      exact ⟨h0, hcs1, fun _ => rfl⟩

/-- No sequence becomes well-scoped again (R141). -/
theorem scopeRun_bad (c : Bool) (is : List Instr) : ScopeState.run c .bad is = .bad := by
  induction is with
  | nil => rfl
  | cons i is ih => exact ih

theorem scopeRun_cons (c : Bool) (q : ScopeState) (i : Instr) (is : List Instr) :
    ScopeState.run c q (i :: is) = ScopeState.run c (q.next c i) is := rfl

/-- Every first part of a well-scoped sequence keeps to the scopes. -/
theorem scopeRun_ne_bad_of_wellScoped {c : Bool} {first rest : List Instr}
    (h : wellScoped c (first ++ rest) = true) : ScopeState.run c .free first ≠ .bad := by
  intro hbad
  have hwhole : ScopeState.run c .free (first ++ rest) = .bad := by
    rw [ScopeState.run, List.foldl_append]
    exact (congrArg (ScopeState.run c · rest) hbad).trans (scopeRun_bad c rest)
  rw [wellScoped, hwhole] at h
  cases h

/-- A sequence that keeps to the scopes leads where they say; the configuration and INIT stay (R141). -/
theorem State.InScope.issueAll {q : ScopeState} {s : State} {is : List Instr} (hq : s.InScope q)
    (hrun : ScopeState.run s.cfg.hasCs2 q is ≠ .bad) :
    (s.issueAll is).InScope (ScopeState.run s.cfg.hasCs2 q is) ∧ (s.issueAll is).initDone = s.initDone := by
  induction is generalizing q s with
  | nil => exact ⟨hq, rfl⟩
  | cons i is ih =>
    obtain ⟨t, he⟩ := exec_total i s
    have hkept : Kept s t := by
      obtain ⟨-, st, v, -, rfl⟩ | ⟨-, -, -, bs, k, -, -, rfl⟩ := exec_cases he
      · exact ⟨rfl, rfl, rfl, rfl, rfl, rfl⟩
      · exact s.afterCommand_kept i bs k
    obtain ⟨hcfg, -, hinit, -⟩ := hkept
    rw [scopeRun_cons] at hrun ⊢
    have hnext : q.next s.cfg.hasCs2 i ≠ .bad := fun hbad => hrun (by rw [hbad, scopeRun_bad])
    rw [State.issueAll_cons, State.issue_of_exec he, ← hinit]
    rw [← hcfg] at hrun ⊢
    exact ih (hcfg.symm ▸ hq.next hnext he) hrun

/-- Where the scopes describe the engine, no two chip-selects are low (R142). -/
theorem State.InScope.not_bothSelected {q : ScopeState} {s : State} (hq : s.InScope q) : bothSelected s = false := by
  cases q with
  | free => simp [bothSelected, hq.2.1]
  | held1 used =>
    obtain ⟨-, -, hcs2⟩ := hq
    cases hc : s.cfg.hasCs2 with
    | false => simp [bothSelected, hc]
    | true => simp [bothSelected, hcs2 hc]
  | held2 used => simp [bothSelected, hq.2.2.1]
  | done => simp [bothSelected, hq.2]
  | bad => exact hq.elim

/-- Settles O59: the scopes describe the engine after every first part, and that fixes the phase (R14). -/
theorem wellScopedSequencesSelectOneSlaveAtATime : Obligations.WellScopedSequencesSelectOneSlaveAtATime := by
  intro s first rest hidle hws
  obtain ⟨hi, h0, hcs1, hcs2⟩ := s.phase_eq_idle_iff.mp hidle
  have hfree : s.InScope .free := ⟨h0, hcs1, hcs2⟩
  obtain ⟨hq, hinit⟩ := hfree.issueAll (scopeRun_ne_bad_of_wellScoped hws)
  refine ⟨hq.not_bothSelected, ?_⟩
  have hi' := hinit.trans hi
  generalize s.issueAll first = t at hq hi' ⊢
  cases hrun : ScopeState.run s.cfg.hasCs2 .free first with
  | free =>
    rw [hrun] at hq
    exact t.phase_eq_idle_iff.mpr ⟨hi', hq⟩
  | held1 used =>
    rw [hrun] at hq
    obtain ⟨h0, hcs1, -⟩ := hq
    exact (State.phase_eq_chipSelectPhase hi' h0).trans (if_pos (.inl hcs1))
  | held2 used =>
    rw [hrun] at hq
    obtain ⟨h0, hc, -, hcs2⟩ := hq
    exact (State.phase_eq_chipSelectPhase hi' h0).trans (if_pos (.inr ⟨hc, hcs2⟩))
  | done =>
    rw [hrun] at hq
    exact State.phase_closed hi' hq.1
  | bad =>
    rw [hrun] at hq
    exact hq.elim

end Sys2Proof.Machine
end
